-- ==== Sys2Proof/Word.lean ====
section
/-!
DEFINITION. The word types of SBCE and the fixed-size sequences built from them (00_scope.md R7, R8, R14, R15).
-/

namespace Sys2Proof

/-- A byte, 0 to 255 (R14). -/
abbrev Byte := BitVec 8

/-- A raw table entry, 0 to 15 (R23). -/
abbrev Entry := BitVec 4

/-- A 16-bit address or length (R76, R77). -/
abbrev Half := BitVec 16

/-- A 32-bit command word, response datum or control register (R31, R70, R73). -/
abbrev Word := BitVec 32

/-- A Block: `BLOCK_SIZE` = 8 bytes, offset 0 first (R7, R15). -/
abbrev Block := Vector Byte 8

/-- A permutation table as raw entries: entry `i` holds the 1-based position `T[i]` (R15, R23). -/
abbrev Table := Vector Entry 8

/-- A RoundKeySet: `ROUND_COUNT` = 16 round keys, each a Block (R8, R27). -/
abbrev RoundKeys := Vector Block 16

end Sys2Proof
end

