-- ==== Sys2Proof/Syntax.lean ====
section
/-!
DEFINITION. The 22 commands of SBCE, one constructor per row of the opcode map (30_encoding.md R83), each with its operand
fields at the width the format gives them (R74 to R81).
-/

namespace Sys2Proof

/-- A command with its operands. The order of the arguments is that of the assembler text (R88). -/
inductive Instr where
  /-- `NOP` (R100). -/
  | nop
  /-- `SRST`, soft reset (R101). -/
  | srst
  /-- `CLRERR`, acknowledge a latched error (R102). -/
  | clrerr
  /-- `RDCR n`, read control register `n` (R103). -/
  | rdcr (n : BitVec 8)
  /-- `KEYCLR`, empty the key (R104). -/
  | keyclr
  /-- `KEYPUSH d`, append a key byte (R105). -/
  | keypush (d : BitVec 8)
  /-- `LDIP idx, val`, write entry `idx` of IP (R106). -/
  | ldip (idx : BitVec 3) (val : BitVec 4)
  /-- `LDFP idx, val`, write entry `idx` of FP (R107). -/
  | ldfp (idx : BitVec 3) (val : BitVec 4)
  /-- `INIT`, the construction (R108). -/
  | init
  /-- `PERMIP`, BLK through IP (R124). -/
  | permip
  /-- `PERMFP`, BLK through FP (R125). -/
  | permfp
  /-- `PERMIPI`, BLK through the inverse of IP (R126). -/
  | permipi
  /-- `PERMFPI`, BLK through the inverse of FP (R127). -/
  | permfpi
  /-- `RDRK rnd, idx`, read a round-key byte (R145). -/
  | rdrk (rnd : BitVec 4) (idx : BitVec 3)
  /-- `ROUND rnd`, one round on BLK (R162). -/
  | round (rnd : BitVec 4)
  /-- `LDBLK idx, d`, write a byte of BLK (R179). -/
  | ldblk (idx : BitVec 3) (d : BitVec 8)
  /-- `RDBLK idx`, read a byte of BLK (R180). -/
  | rdblk (idx : BitVec 3)
  /-- `XFORM dir`, the block transform on BLK (R181). -/
  | xform (dir : BitVec 1)
  /-- `WRBUF addr, d`, write a byte of IBUF (R192). -/
  | wrbuf (addr : BitVec 16) (d : BitVec 8)
  /-- `SETLEN n`, set the length of the input (R193). -/
  | setlen (n : BitVec 16)
  /-- `RUN dir`, transform the input buffer into the output buffer (R194). -/
  | run (dir : BitVec 1)
  /-- `RDOBUF addr`, read a byte of OBUF (R195). -/
  | rdobuf (addr : BitVec 16)
  deriving DecidableEq, Repr

end Sys2Proof
end

