-- ==== Sys2Proof/WellFormed.lean ====
section
/-!
DEFINITION. When a command written with plain numbers is a command: it has the operands its mnemonic asks for and each fits
its field's width (30_encoding.md R88: "An operand that does not fit its field's width is an assembly error, not a
command"). An `Instr` carries its operands at their field widths, so every `Instr` passes.
-/

namespace Sys2Proof

/-- The mnemonics of the opcode map (R83), without operands. -/
inductive Mnemonic where
  | nop | srst | clrerr | rdcr | keyclr | keypush | ldip | ldfp | init
  | permip | permfp | permipi | permfpi | rdrk | round | ldblk | rdblk | xform
  | wrbuf | setlen | run | rdobuf
  deriving DecidableEq, Repr

/-- A command as it is written: a mnemonic and its operands in the order of the text (R88). -/
structure Source where
  mnemonic : Mnemonic
  operands : List Nat
  deriving DecidableEq, Repr

/-- The operand fields' widths, in the order of the text (R74 to R81, R88). -/
def Mnemonic.widths : Mnemonic → List Nat
  | .nop | .srst | .clrerr | .keyclr | .init => []
  | .permip | .permfp | .permipi | .permfpi => []
  | .rdcr | .keypush => [8]
  | .ldip | .ldfp => [3, 4]
  | .rdrk => [4, 3]
  | .round => [4]
  | .ldblk => [3, 8]
  | .rdblk => [3]
  | .xform | .run => [1]
  | .wrbuf => [16, 8]
  | .setlen | .rdobuf => [16]

/-- As many operands as fields, each below 2 to the field's width. -/
def operandsFit : List Nat → List Nat → Bool
  | [], [] => true
  | w :: ws, v :: vs => decide (v < 2 ^ w) && operandsFit ws vs
  | _, _ => false

/-- The check on a written command (R88). -/
def Source.wellFormed (c : Source) : Bool := operandsFit c.mnemonic.widths c.operands

/-- A command as it is written (R88). -/
def Instr.toSource : Instr → Source
  | .nop => ⟨.nop, []⟩
  | .srst => ⟨.srst, []⟩
  | .clrerr => ⟨.clrerr, []⟩
  | .rdcr n => ⟨.rdcr, [n.toNat]⟩
  | .keyclr => ⟨.keyclr, []⟩
  | .keypush d => ⟨.keypush, [d.toNat]⟩
  | .ldip idx val => ⟨.ldip, [idx.toNat, val.toNat]⟩
  | .ldfp idx val => ⟨.ldfp, [idx.toNat, val.toNat]⟩
  | .init => ⟨.init, []⟩
  | .permip => ⟨.permip, []⟩
  | .permfp => ⟨.permfp, []⟩
  | .permipi => ⟨.permipi, []⟩
  | .permfpi => ⟨.permfpi, []⟩
  | .rdrk rnd idx => ⟨.rdrk, [rnd.toNat, idx.toNat]⟩
  | .round rnd => ⟨.round, [rnd.toNat]⟩
  | .ldblk idx d => ⟨.ldblk, [idx.toNat, d.toNat]⟩
  | .rdblk idx => ⟨.rdblk, [idx.toNat]⟩
  | .xform dir => ⟨.xform, [dir.toNat]⟩
  | .wrbuf addr d => ⟨.wrbuf, [addr.toNat, d.toNat]⟩
  | .setlen n => ⟨.setlen, [n.toNat]⟩
  | .run dir => ⟨.run, [dir.toNat]⟩
  | .rdobuf addr => ⟨.rdobuf, [addr.toNat]⟩

/-- The same check on a decoded command. -/
def Instr.wellFormed (i : Instr) : Bool := i.toSource.wellFormed

end Sys2Proof
end

