-- ==== Sys2Proof/Decode.lean ====
section
/-!
DEFINITION. Decoding a command word, total on all 2^32 words (30_encoding.md R90), and the encoder that inverts it.
-/

namespace Sys2Proof

/-- Why a word is no command; the two sub-causes of `IllegalCommandError` (R84, R85). -/
inductive IllegalWord where
  /-- The opcode is not in the opcode map (R84, sub-cause 1). -/
  | undefinedOpcode
  /-- The opcode is defined and a reserved bit is 1 (R85, sub-cause 2). -/
  | reservedBit
  deriving DecidableEq, Repr

/-- What a command word decodes to (R90). -/
inductive Decoded where
  | command (i : Instr)
  | illegal (why : IllegalWord)
  deriving DecidableEq, Repr

/-! ## Operand fields (R82) -/

/-- `op = CW[31:24]`. -/
def opField (w : Word) : BitVec 8 := w.extractLsb' 24 8
/-- `d` or `n` of formats B, A and X: `CW[7:0]`. -/
def byteField (w : Word) : BitVec 8 := w.extractLsb' 0 8
/-- `addr` or `n` of formats A and L: `CW[23:8]`. -/
def halfField (w : Word) : BitVec 16 := w.extractLsb' 8 16
/-- `idx = CW[10:8]`. -/
def idxField (w : Word) : BitVec 3 := w.extractLsb' 8 3
/-- `val = CW[3:0]`. -/
def valField (w : Word) : BitVec 4 := w.extractLsb' 0 4
/-- `rnd = CW[19:16]`. -/
def rndField (w : Word) : BitVec 4 := w.extractLsb' 16 4
/-- `dir = CW[0]`. -/
def dirField (w : Word) : BitVec 1 := w.extractLsb' 0 1

/-! ## The opcode map (R83) -/

/-- A row of the opcode map: the opcode, the mask with a 1 at every opcode bit and every reserved bit, and the command
its fields make (R82, R83). The row's `match` value is the opcode with every other bit 0. -/
structure OpcodeRow where
  op : BitVec 8
  mask : Word
  build : Word → Instr

/-- The row's `match` column (R83). -/
def OpcodeRow.pattern (r : OpcodeRow) : Word := r.op.setWidth 32 <<< 24

/-- Housekeeping and configuration, opcodes 0x0n and 0x1n. -/
def configurationRows : List OpcodeRow :=
  [ ⟨0x00, 0xFFFFFFFF, fun _ => .nop⟩,
    ⟨0x01, 0xFFFFFFFF, fun _ => .srst⟩,
    ⟨0x02, 0xFFFFFFFF, fun _ => .clrerr⟩,
    ⟨0x03, 0xFFFFFF00, fun w => .rdcr (byteField w)⟩,
    ⟨0x10, 0xFFFFFFFF, fun _ => .keyclr⟩,
    ⟨0x11, 0xFFFFFF00, fun w => .keypush (byteField w)⟩,
    ⟨0x12, 0xFFFFF8F0, fun w => .ldip (idxField w) (valField w)⟩,
    ⟨0x13, 0xFFFFF8F0, fun w => .ldfp (idxField w) (valField w)⟩,
    ⟨0x14, 0xFFFFFFFF, fun _ => .init⟩ ]

/-- Permutation, key schedule and round function, opcodes 0x2n and 0x3n. -/
def stageRows : List OpcodeRow :=
  [ ⟨0x20, 0xFFFFFFFF, fun _ => .permip⟩,
    ⟨0x21, 0xFFFFFFFF, fun _ => .permfp⟩,
    ⟨0x22, 0xFFFFFFFF, fun _ => .permipi⟩,
    ⟨0x23, 0xFFFFFFFF, fun _ => .permfpi⟩,
    ⟨0x28, 0xFFF0F8FF, fun w => .rdrk (rndField w) (idxField w)⟩,
    ⟨0x30, 0xFFF0FFFF, fun w => .round (rndField w)⟩ ]

/-- Block engine and file codec, opcodes 0x4n and 0x5n. -/
def dataRows : List OpcodeRow :=
  [ ⟨0x40, 0xFFFFF800, fun w => .ldblk (idxField w) (byteField w)⟩,
    ⟨0x41, 0xFFFFF8FF, fun w => .rdblk (idxField w)⟩,
    ⟨0x42, 0xFFFFFFFE, fun w => .xform (dirField w)⟩,
    ⟨0x50, 0xFF000000, fun w => .wrbuf (halfField w) (byteField w)⟩,
    ⟨0x51, 0xFF0000FF, fun w => .setlen (halfField w)⟩,
    ⟨0x52, 0xFFFFFFFE, fun w => .run (dirField w)⟩,
    ⟨0x53, 0xFF0000FF, fun w => .rdobuf (halfField w)⟩ ]

/-- The 22 rows (R83). -/
def opcodeRows : List OpcodeRow := configurationRows ++ stageRows ++ dataRows

/-- The decode procedure (R90): the row of the opcode, then its mask, then its fields. -/
def decode (w : Word) : Decoded :=
  match opcodeRows.find? (fun r => r.op == opField w) with
  | none => .illegal .undefinedOpcode
  | some r => if w &&& r.mask = r.pattern then .command (r.build w) else .illegal .reservedBit

/-! ## The encoder -/

/-- A word with its opcode set and every other bit 0 (R83, the `match` column). -/
def opWord (op : BitVec 8) : Word := op.setWidth 32 <<< 24

/-- A field moved to its position, its lowest bit at `lo` (R90). -/
def fieldAt {n : Nat} (v : BitVec n) (lo : Nat) : Word := v.setWidth 32 <<< lo

/-- The one word of a command: `match` OR each field shifted to its position (R90). -/
def encode : Instr → Word
  | .nop => opWord 0x00
  | .srst => opWord 0x01
  | .clrerr => opWord 0x02
  | .rdcr n => opWord 0x03 ||| fieldAt n 0
  | .keyclr => opWord 0x10
  | .keypush d => opWord 0x11 ||| fieldAt d 0
  | .ldip idx val => opWord 0x12 ||| fieldAt idx 8 ||| fieldAt val 0
  | .ldfp idx val => opWord 0x13 ||| fieldAt idx 8 ||| fieldAt val 0
  | .init => opWord 0x14
  | .permip => opWord 0x20
  | .permfp => opWord 0x21
  | .permipi => opWord 0x22
  | .permfpi => opWord 0x23
  | .rdrk rnd idx => opWord 0x28 ||| fieldAt rnd 16 ||| fieldAt idx 8
  | .round rnd => opWord 0x30 ||| fieldAt rnd 16
  | .ldblk idx d => opWord 0x40 ||| fieldAt idx 8 ||| fieldAt d 0
  | .rdblk idx => opWord 0x41 ||| fieldAt idx 8
  | .xform dir => opWord 0x42 ||| fieldAt dir 0
  | .wrbuf addr d => opWord 0x50 ||| fieldAt addr 8 ||| fieldAt d 0
  | .setlen n => opWord 0x51 ||| fieldAt n 8
  | .run dir => opWord 0x52 ||| fieldAt dir 0
  | .rdobuf addr => opWord 0x53 ||| fieldAt addr 8

/-- The command word whose bits are the lowest `nbits` bits of `w`, every bit above them 0. A command word is one 32-bit
value, so its bits are numbered as the opcode table numbers them (R70). -/
def tableWord (nbits w : Nat) : Word := BitVec.ofNat 32 (w % 2 ^ nbits)

/-- The command the decoder reads from the word whose bits are `w`; none where it refuses. -/
def decodeTableWord (nbits w : Nat) : Option Instr :=
  match decode (tableWord nbits w) with
  | .command i => some i
  | .illegal _ => none

end Sys2Proof
end

