-- ==== Sys2Proof/Config.lean ====
section
/-!
DEFINITION. What an instance of SBCE fixes (00_scope.md R9, R10, R12), and the free values of the model.
-/

namespace Sys2Proof

/-- `DEC_MODE`: what the direction flag of `XFORM` and `RUN` does (R12). -/
inductive DecMode where
  /-- The flag is accepted and ignored, D0's reference behaviour. -/
  | forward
  /-- A set flag selects the inverse transform. -/
  | inverse
  deriving DecidableEq, Repr

/-- The three parameters the spec leaves to an instance of the hardware (R9, R10, R12). -/
structure Params where
  /-- `KEY_MAX`, the most bytes the key store holds (R9). -/
  keyMax : Nat
  /-- `BUF_MAX`, the bytes in each of the two buffers (R10). -/
  bufMax : Nat
  /-- `DEC_MODE` (R12). -/
  decMode : DecMode
  deriving DecidableEq, Repr

/-- The bounds the spec puts on the parameters (R9, R10). -/
abbrev Params.wf (p : Params) : Prop :=
  8 ≤ p.keyMax ∧ p.keyMax ≤ 65535 ∧ p.bufMax % 8 = 0 ∧ 8 ≤ p.bufMax ∧ p.bufMax ≤ 65528

/-- The values used when nothing else is given (R9, R10, R12). -/
def Params.standard : Params := { keyMax := 256, bufMax := 4096, decMode := .forward }

/-- The two byte-addressed spaces (R50). -/
inductive Space where
  | ibuf
  | obuf
  deriving DecidableEq, Repr

/-- FREE VALUE (log entry 6): the byte an address of a buffer holds after a hardware reset and before its first write.
The spec makes it any value, one fixed array per reset (R46, U1), so it depends on the space, on which reset it was and
on the address. -/
opaque Config.powerOnByte : Space → Nat → Nat → Byte

/-- FREE VALUE (log entry 8): the byte `permute` gives at an offset whose table entry names no position. The spec gives
`permute` no value there (R120, U7), and no run from reset applies it so (R43). -/
opaque Config.noPositionByte : Table → Block → Nat → Byte

end Sys2Proof
end

