-- ==== Sys2Proof/Machine/State.lean ====
section
/-!
DEFINITION. The state of SBCE (10_state.md R20), the port the host drives it through (30_encoding.md R70 to R73), the
ways a step can stop, and the state after a hardware reset (10_state.md R46).
-/

namespace Sys2Proof.Machine

/-- The written bytes of a buffer: address and byte, addresses strictly rising. An unlisted address holds no byte that
was written since the last hardware reset; what it reads as is the free value of log entry 6. -/
abbrev Memory := List Host.Cell

/-- A response: the code (0x00 is `OK`) and 32 bits of data (R73). -/
structure Response where
  code : Byte
  data : Word
  deriving DecidableEq, Repr

/-- What the port has yet to take: a command word (R70, R71), or a hardware reset, which is an event outside the command
stream that can occur between any two commands (R240). -/
inductive PortEvent where
  | command (cw : Word)
  | hardwareReset
  deriving DecidableEq, Repr

/-- The state. `KLEN` is the length of `key` (R22: "a model represents the key as a byte list of length KLEN"). The last
four fields and `params` are not the spec's own state: they hold its parameters, its input and its output (log entries
1, 2, 3, 6). -/
structure State where
  /-- `KEY[0]` to `KEY[KLEN-1]` (R22). -/
  key : List Byte
  /-- `IP`, raw entries (R23). -/
  ip : Table
  /-- `FP`, raw entries (R23). -/
  fp : Table
  /-- `READY` (R25). -/
  ready : Bool
  /-- `RK` (R27). -/
  rk : RoundKeys
  /-- `IPI` (R28). -/
  ipi : Table
  /-- `FPI` (R28). -/
  fpi : Table
  /-- `BLK` (R21). -/
  blk : Block
  /-- `IBUF` (R29). -/
  ibuf : Memory
  /-- `LEN` (R29). -/
  len : Half
  /-- `OBUF` (R30). -/
  obuf : Memory
  /-- `OLEN` (R30). -/
  olen : Half
  /-- `ERR` (R26). -/
  err : Byte
  /-- `ERRINFO` (R26). -/
  errInfo : Byte
  /-- `KEY_MAX`, `BUF_MAX`, `DEC_MODE`: fixed for an instance, never written by a step (R9, R10, R12). -/
  params : Params
  /-- What the host has yet to present on the port, in order (R71). -/
  port : List PortEvent
  /-- The response to the last command; none before the first one since a hardware reset (R73). -/
  resp : Option Response
  /-- How many hardware resets there have been: it selects the free contents of the buffers (R46, log entry 6). -/
  resets : Nat
  deriving DecidableEq, Repr

/-- `KLEN` (R22). -/
def State.klen (s : State) : Nat := s.key.length

/-- SBCE has no way to stop with a fault: "no command and no error stops the engine" (R72). Its errors are responses
(R216). So this type has no constructor and no step answers a fault. -/
inductive Fault where
  deriving DecidableEq, Repr

/-- Why a command has no meaning in the model. -/
inductive Refusal where
  /-- Raised by an arm of `exec` whose command has no meaning yet; no arm does. Safe. -/
  | notModelled (mnemonic : String)
  deriving DecidableEq, Repr

/-- The state after a hardware reset of an engine with the given parameters (R46, R240, R241). `RK`, `IPI` and `FPI` have
no reset value in the spec; theirs is log entry 5. -/
def State.resetWith (params : Params) : State where
  key := []
  ip := Vector.replicate 8 0
  fp := Vector.replicate 8 0
  ready := false
  rk := Vector.replicate 16 (Vector.replicate 8 0)
  ipi := Vector.replicate 8 0
  fpi := Vector.replicate 8 0
  blk := Vector.replicate 8 0
  ibuf := []
  len := 0
  obuf := []
  olen := 0
  err := 0
  errInfo := 0
  params := params
  port := []
  resp := none
  resets := 0

/-- The state right after reset, at the parameter values used when nothing else is given (R9, R10, R12, R46). -/
def State.reset : State := State.resetWith Params.standard

end Sys2Proof.Machine
end

