-- ==== Sys2Proof/Machine/Cipher.lean ====
section
/-!
DEFINITION. The pure functions of the cipher (00_scope.md R17): the permutation network (41_permutation.md), the key
schedule (42_key_schedule.md), the round function (43_round_function.md), the block transform (44_block_engine.md) and the
file codec (45_file_codec.md).
-/

namespace Sys2Proof.Machine

/-- An entry names a position: it is 1 to 8 (R121 (a)). -/
abbrev namesPosition (e : Entry) : Prop := 1 ≤ e.toNat ∧ e.toNat ≤ 8

/-- `valid_table(T)`: every entry is in range and the entries are pairwise distinct (R121). -/
abbrev validTable (T : Table) : Prop :=
  (∀ i : Fin 8, namesPosition T[i]) ∧ ∀ i k : Fin 8, i ≠ k → T[i] ≠ T[k]

/-- `permute(T, B)`: output offset `i` is the input byte at 1-based position `T[i]` (R120). An entry that names no position
gives a free byte (log entry 8). -/
def permute (T : Table) (B : Block) : Block :=
  Vector.ofFn fun i =>
    if h : namesPosition T[i] then B[T[i].toNat - 1]'(by unfold namesPosition at h; omega)
    else Config.noPositionByte T B i.val

/-- `invert_table(T)` for a valid table: entry `p` is `i + 1` for the `i` with `T[i] = p + 1` (R122). It has no value for
another table (log entry 15). -/
def invertTable (T : Table) (_ : validTable T) : Table :=
  Vector.ofFn fun p =>
    match (List.finRange 8).find? fun i => T[i].toNat == p.val + 1 with
    | some i => BitVec.ofNat 4 (i.val + 1)
    | none => 0

/-- `schedule(K)` for a key of length at least 1: `RK[i][j] = K[(i + j) mod L]` (R140). It has no value for the empty key
(R141). -/
def schedule (K : List Byte) (h : 0 < K.length) : RoundKeys :=
  Vector.ofFn fun i => Vector.ofFn fun j => K[(i.val + j.val) % K.length]'(Nat.mod_lt _ h)

/-- Byte-wise exclusive-or of two Blocks (R18 (a)). -/
def xorBlock (A B : Block) : Block := Vector.ofFn fun j => A[j] ^^^ B[j]

/-- `round(B, K)`: `B[j] XOR K[j]` at every offset (R160). -/
def roundBlock (B K : Block) : Block := xorBlock B K

/-- `engine_fwd(B, IP, FP, RK)`: IP, then round keys 0 to 15 in order, then FP (R170, R171). -/
def engineFwd (B : Block) (IP FP : Table) (RK : RoundKeys) : Block :=
  permute FP (RK.toList.foldl roundBlock (permute IP B))

/-- `engine_inv(C, IPI, FPI, RK)`: FPI, then round keys 15 down to 0, then IPI (R172). -/
def engineInv (C : Block) (IPI FPI : Table) (RK : RoundKeys) : Block :=
  permute IPI (RK.toList.reverse.foldl roundBlock (permute FPI C))

/-- The mask `M`: the exclusive-or of the 16 round keys (R177). -/
def maskOf (RK : RoundKeys) : Block := RK.toList.foldl xorBlock (Vector.replicate 8 0)

/-- `codec(buf, f)`: `f` on each 8-byte chunk, reassembled in place (R190, R196). None for a length that is not a multiple
of 8, for which it is not defined (R191). -/
def codec (f : Block → Block) : List Byte → Option (List Byte)
  | [] => some []
  | b0 :: b1 :: b2 :: b3 :: b4 :: b5 :: b6 :: b7 :: rest =>
    (codec f rest).map ((f #v[b0, b1, b2, b3, b4, b5, b6, b7]).toList ++ ·)
  | _ => none

/-- `select(dir)`: the transform `XFORM` and `RUN` apply (R173, R174, R175). -/
def select (s : State) (dir : BitVec 1) (B : Block) : Block :=
  if s.params.decMode = .inverse ∧ dir = 1 then engineInv B s.ipi s.fpi s.rk else engineFwd B s.ip s.fp s.rk

end Sys2Proof.Machine
end

