-- ==== Sys2Proof/Machine/Flags.lean ====
section
/-!
DEFINITION. The flags: the error classes with their codes and sub-causes (60_exceptions.md R211), the first-error latch
(10_state.md R26, 60_exceptions.md R220), `READY` (10_state.md R25), and the status words made from them (R34, R35).
-/

namespace Sys2Proof.Machine

/-- The errors a command can raise, one constructor per row and sub-cause of R211. -/
inductive CommandError where
  /-- `ConfigurationError` 1: IP is not a bijection on 1 to 8. -/
  | ipNotBijective
  /-- `ConfigurationError` 2: FP is not a bijection on 1 to 8. -/
  | fpNotBijective
  /-- `ConfigurationError` 3: the key is empty. -/
  | emptyKey
  /-- `BlockAlignmentError`, with `LEN mod 8`. -/
  | misaligned (remainder : Byte)
  /-- `NotReadyError`. -/
  | notReady
  /-- `IllegalCommandError` 1: undefined opcode. -/
  | undefinedOpcode
  /-- `IllegalCommandError` 2: defined opcode with a non-zero reserved bit. -/
  | reservedBit
  /-- `RangeError` 1: control register number above 9. -/
  | controlRegisterNumber
  /-- `RangeError` 2: buffer address out of range. -/
  | bufferAddress
  /-- `RangeError` 3: length above `BUF_MAX`. -/
  | lengthAboveCapacity
  /-- `RangeError` 4: key store full. -/
  | keyStoreFull
  deriving DecidableEq, Repr

/-- The error code, the `code` of the response and the value latched in `ERR` (R211). -/
def errorCode : CommandError → Byte
  | .ipNotBijective | .fpNotBijective | .emptyKey => 0x01
  | .misaligned _ => 0x02
  | .notReady => 0x03
  | .undefinedOpcode | .reservedBit => 0x04
  | .controlRegisterNumber | .bufferAddress | .lengthAboveCapacity | .keyStoreFull => 0x05

/-- The sub-cause, response data bits [7:0] and `ERRINFO` (R211). -/
def errorInfo : CommandError → Byte
  | .ipNotBijective => 1
  | .fpNotBijective => 2
  | .emptyKey => 3
  | .misaligned remainder => remainder
  | .notReady => 0
  | .undefinedOpcode => 1
  | .reservedBit => 2
  | .controlRegisterNumber => 1
  | .bufferAddress => 2
  | .lengthAboveCapacity => 3
  | .keyStoreFull => 4

/-- The latch keeps the first error: it is written only while `ERR` = 0 (R26, R220). -/
def latchError (e : CommandError) (s : State) : State :=
  if s.err = 0 then { s with err := errorCode e, errInfo := errorInfo e } else s

/-- Clearing the latch (R26, R102). -/
def clearLatch (s : State) : State := { s with err := 0, errInfo := 0 }

/-- Every configuration write that executes without error ends the invocation: `READY <- 0` (R110). -/
def endInvocation (s : State) : State := { s with ready := false }

/-- One bit as a 32-bit value. -/
def bitWord (b : Bool) : Word := if b then 1 else 0

/-- `STATUS`: bit 0 `READY`, bit 1 `ERRV`, bit 2 `DECM` (R34). -/
def statusWord (s : State) : Word :=
  bitWord s.ready ||| bitWord (s.err != 0) <<< 1 ||| bitWord (s.params.decMode == .inverse) <<< 2

/-- `ERR` as a control register: bits [7:0] `ERR`, bits [15:8] `ERRINFO` (R35). -/
def errorWord (s : State) : Word := s.err.setWidth 32 ||| s.errInfo.setWidth 32 <<< 8

end Sys2Proof.Machine
end

