-- ==== Sys2Proof/Machine/Operands.lean ====
section
/-!
DEFINITION. What an operand field selects (30_encoding.md R82): an offset of a Block or table, a round key, a control
register (10_state.md R31 to R42), a buffer address, a length.
-/

namespace Sys2Proof.Machine

/-- Element `idx` of a Block or a table (R78, R79). -/
def atOffset {α : Type} (v : Vector α 8) (idx : BitVec 3) : α := v[idx.toNat]'idx.isLt

/-- `v[idx] <- x`, the other seven elements kept (R78, R79). -/
def setOffset {α : Type} (v : Vector α 8) (idx : BitVec 3) (x : α) : Vector α 8 := v.set idx.toNat x idx.isLt

/-- `RK[rnd]` (R80). -/
def roundKey (rk : RoundKeys) (rnd : BitVec 4) : Block := rk[rnd.toNat]'rnd.isLt

/-- A table as a control register: bits [4*i+3 : 4*i] are entry `i` (R39, R40). -/
def tableRegister (T : Table) : Word :=
  T[0].setWidth 32 ||| T[1].setWidth 32 <<< 4 ||| T[2].setWidth 32 <<< 8 ||| T[3].setWidth 32 <<< 12 |||
    T[4].setWidth 32 <<< 16 ||| T[5].setWidth 32 <<< 20 ||| T[6].setWidth 32 <<< 24 ||| T[7].setWidth 32 <<< 28

/-- A 16-bit quantity as a control register: bits [15:0], the rest 0 (R36 to R38, R41, R42). -/
def halfRegister (v : Half) : Word := v.setWidth 32

/-- `CR[n]`, none for a number that selects no register (R31 to R42, R103). -/
def controlRegister (s : State) (n : BitVec 8) : Option Word :=
  match n.toNat with
  | 0 => some 0x53420810
  | 1 => some (statusWord s)
  | 2 => some (errorWord s)
  | 3 => some (halfRegister (BitVec.ofNat 16 s.klen))
  | 4 => some (halfRegister s.len)
  | 5 => some (halfRegister s.olen)
  | 6 => some (tableRegister s.ip)
  | 7 => some (tableRegister s.fp)
  | 8 => some (halfRegister (BitVec.ofNat 16 s.params.keyMax))
  | 9 => some (halfRegister (BitVec.ofNat 16 s.params.bufMax))
  | _ => none

/-- `addr < BUF_MAX`: the address exists (R51, R192). -/
abbrev addressExists (s : State) (addr : Half) : Prop := addr.toNat < s.params.bufMax

/-- `addr < OLEN`: the output byte is valid (R51, R195). -/
abbrev outputValid (s : State) (addr : Half) : Prop := addr.toNat < s.olen.toNat

/-- `n ≤ BUF_MAX`: the length fits the buffer (R193). -/
abbrev lengthFits (s : State) (n : Half) : Prop := n.toNat ≤ s.params.bufMax

/-- `KLEN = KEY_MAX`: the key store is full (R105). -/
abbrev keyStoreFull (s : State) : Prop := s.klen = s.params.keyMax

end Sys2Proof.Machine
end

