-- ==== Sys2Proof/Machine/Ops.lean ====
section
/-!
DEFINITION. The named operations over the buffers (20_memory.md, 00_scope.md R16), the end of a command (`respond` and
`raise`, 00_scope.md R16, 60_exceptions.md R216), the hardware reset (70_reset_and_hazards.md R240) and taking the next
event from the port (30_encoding.md R71).
-/

namespace Sys2Proof.Machine

/-! ## Buffer memory -/

/-- The canonical form: addresses strictly rising. Every listed byte was written, and an unlisted address has no written
byte, so no entry equals what an unlisted address reads as (log entry 6). -/
abbrev Memory.wf (m : Memory) : Prop := m.Pairwise fun c d => c.1 < d.1

/-- The written byte at an address, none where nothing was written. -/
def Memory.lookup : Memory → Nat → Option Byte
  | [], _ => none
  | (k, b) :: rest, a => if k = a then some b else Memory.lookup rest a

/-- Write one byte, keeping the addresses rising. -/
def Memory.write : Memory → Nat → Byte → Memory
  | [], a, d => [(a, d)]
  | (k, b) :: rest, a, d =>
    if a < k then (a, d) :: (k, b) :: rest
    else if a = k then (a, d) :: rest
    else (k, b) :: Memory.write rest a d

/-- `MemWrite(M, a, n, S)`: `M[a+j] <- S[j]` (R16). -/
def memWrite (m : Memory) (a : Nat) : List Byte → Memory
  | [] => m
  | b :: bs => memWrite (m.write a b) (a + 1) bs

/-- The memory of a space (R50). -/
def State.memory (s : State) : Space → Memory
  | .ibuf => s.ibuf
  | .obuf => s.obuf

/-- The byte at an address of a space: the last one written, else what the hardware reset left there (R46, R56). -/
def byteAt (s : State) (sp : Space) (a : Nat) : Byte :=
  ((s.memory sp).lookup a).getD (Config.powerOnByte sp s.resets a)

/-- `MemRead(M, a, n)`: the `n` bytes from address `a` up (R16). -/
def memRead (s : State) (sp : Space) (a n : Nat) : List Byte := (List.range n).map fun j => byteAt s sp (a + j)

/-- Block `k` of a space: offset `j` is the byte at address `8*k + j` (R52). -/
def blockAt (s : State) (sp : Space) (k : Nat) : Block := Vector.ofFn fun j => byteAt s sp (8 * k + j.val)

/-- Write all 8 bytes of a Block as block `k` (R52, R196). -/
def writeBlock (m : Memory) (k : Nat) (W : Block) : Memory := memWrite m (8 * k) W.toList

/-- OBUF after the blocks 0 to `n`-1 of a `RUN`, in ascending order: block `k` of IBUF transformed and written back whole
(R194). -/
def runBlocks (s : State) (dir : BitVec 1) : Nat → Memory
  | 0 => s.obuf
  | k + 1 => writeBlock (runBlocks s dir k) k (select s dir (blockAt s .ibuf k))

/-! ## The end of a command -/

/-- `respond(code, data)` (R16, R73). -/
def respond (code : Byte) (data : Word) (s : State) : Host.Outcome State Fault Refusal :=
  .next { s with resp := some ⟨code, data⟩ }

/-- `respond OK(data)` (R16). -/
def respondOk (data : Word) (s : State) : Host.Outcome State Fault Refusal := respond 0x00 data s

/-- `raise E(info)`: the latch is written if it holds no error, the response carries this error, and nothing else
changes (R216, R220). -/
def raise (e : CommandError) (s : State) : Host.Outcome State Fault Refusal :=
  respond (errorCode e) ((errorInfo e).setWidth 32) (latchError e s)

/-- A command that needs the construction: `NotReadyError` while `READY` = 0 (R25, R214). -/
def whenReady (s : State) (go : Host.Outcome State Fault Refusal) : Host.Outcome State Fault Refusal :=
  if s.ready then go else raise .notReady s

/-- A word that is no command: `IllegalCommandError` (R84, R85, R215). -/
def illegalCommand (why : IllegalWord) (s : State) : Host.Outcome State Fault Refusal :=
  match why with
  | .undefinedOpcode => raise .undefinedOpcode s
  | .reservedBit => raise .reservedBit s

/-! ## Reset and the port -/

/-- The registers at their reset values (R46, R101): what a hardware reset and `SRST` both do. -/
def clearRegisters (s : State) : State :=
  clearLatch { s with
    key := []
    ip := Vector.replicate 8 0
    fp := Vector.replicate 8 0
    blk := Vector.replicate 8 0
    ready := false
    len := 0
    olen := 0 }

/-- A hardware reset: the registers at their reset values and the bytes of both buffers unspecified anew (R46, R240, U15;
log entries 6 and 7). -/
def hardwareReset (s : State) : State :=
  { clearRegisters s with ibuf := [], obuf := [], resp := none, resets := s.resets + 1 }

/-- The next event on the port, none while the host presents nothing (R71). -/
def nextEvent (s : State) : Option PortEvent := s.port.head?

/-- The state with that event taken. -/
def takeEvent (s : State) : State := { s with port := s.port.tail }

/-- The engine between commands: it takes no action on its own and holds its state (R71, R230). -/
def idle (s : State) : Host.Outcome State Fault Refusal := .next s

/-- A command word put first on the port, so that the engine takes it next (R70, R71). -/
def presentWord (s : State) (cw : Word) : State := { s with port := .command cw :: s.port }

end Sys2Proof.Machine
end

