-- ==== Sys2Proof/Machine/BlockEngine.lean ====
section
/-!
DEFINITION. The commands of the block engine: `LDBLK`, `RDBLK`, `XFORM` (44_block_engine.md).
-/

namespace Sys2Proof.Machine

/-- `LDBLK idx, d` (R179). -/
def execLdblk (idx : BitVec 3) (d : BitVec 8) (s : State) : Host.Outcome State Fault Refusal :=
  respondOk 0 { s with blk := setOffset s.blk idx d }

/-- `RDBLK idx` (R180). -/
def execRdblk (idx : BitVec 3) (s : State) : Host.Outcome State Fault Refusal :=
  respondOk ((atOffset s.blk idx).setWidth 32) s

/-- `XFORM dir` (R181). -/
def execXform (dir : BitVec 1) (s : State) : Host.Outcome State Fault Refusal :=
  whenReady s (respondOk 0 { s with blk := select s dir s.blk })

end Sys2Proof.Machine
end

