-- ==== Sys2Proof/Machine/Configuration.lean ====
section
/-!
DEFINITION. The configuration writes `KEYCLR`, `KEYPUSH`, `LDIP`, `LDFP` and the construction `INIT`
(40_config_and_status.md sections 2 and 3).
-/

namespace Sys2Proof.Machine

/-- `KEYCLR` (R104, R110). -/
def execKeyclr (s : State) : Host.Outcome State Fault Refusal := respondOk 0 (endInvocation { s with key := [] })

/-- `KEYPUSH d` (R105, R110). -/
def execKeypush (d : BitVec 8) (s : State) : Host.Outcome State Fault Refusal :=
  if keyStoreFull s then raise .keyStoreFull s
  else respondOk 0 (endInvocation { s with key := s.key ++ [d] })

/-- `LDIP idx, val` (R106, R110). -/
def execLdip (idx : BitVec 3) (val : BitVec 4) (s : State) : Host.Outcome State Fault Refusal :=
  respondOk 0 (endInvocation { s with ip := setOffset s.ip idx val })

/-- `LDFP idx, val` (R107, R110). -/
def execLdfp (idx : BitVec 3) (val : BitVec 4) (s : State) : Host.Outcome State Fault Refusal :=
  respondOk 0 (endInvocation { s with fp := setOffset s.fp idx val })

/-- `INIT`: IP, then FP, then the key are checked; then the round keys and the inverse tables are derived (R108, R218). -/
def execInit (s : State) : Host.Outcome State Fault Refusal :=
  if hip : validTable s.ip then
    if hfp : validTable s.fp then
      if hkey : 0 < s.key.length then
        respondOk 0 { s with
          rk := schedule s.key hkey
          ipi := invertTable s.ip hip
          fpi := invertTable s.fp hfp
          ready := true }
      else raise .emptyKey s
    else raise .fpNotBijective s
  else raise .ipNotBijective s

end Sys2Proof.Machine
end

