-- ==== Sys2Proof/Machine/FileCodec.lean ====
section
/-!
DEFINITION. The commands of the block-wise wrapper: `WRBUF`, `SETLEN`, `RUN`, `RDOBUF` (45_file_codec.md).
-/

namespace Sys2Proof.Machine

/-- `WRBUF addr, d` (R192). -/
def execWrbuf (addr : BitVec 16) (d : BitVec 8) (s : State) : Host.Outcome State Fault Refusal :=
  if addressExists s addr then respondOk 0 { s with ibuf := memWrite s.ibuf addr.toNat [d] }
  else raise .bufferAddress s

/-- `SETLEN n` (R193). -/
def execSetlen (n : BitVec 16) (s : State) : Host.Outcome State Fault Refusal :=
  if lengthFits s n then respondOk 0 { s with len := n } else raise .lengthAboveCapacity s

/-- `RUN dir`: readiness, then alignment, then every block (R194, R197, R218). -/
def execRun (dir : BitVec 1) (s : State) : Host.Outcome State Fault Refusal :=
  whenReady s <|
    if s.len.toNat % 8 = 0 then
      respondOk (s.len.setWidth 32) { s with obuf := runBlocks s dir (s.len.toNat / 8), olen := s.len }
    else raise (.misaligned (BitVec.ofNat 8 (s.len.toNat % 8))) s

/-- `RDOBUF addr` (R195). -/
def execRdobuf (addr : BitVec 16) (s : State) : Host.Outcome State Fault Refusal :=
  if outputValid s addr then respondOk ((byteAt s .obuf addr.toNat).setWidth 32) s else raise .bufferAddress s

end Sys2Proof.Machine
end

