-- ==== Sys2Proof/Machine/Housekeeping.lean ====
section
/-!
DEFINITION. The housekeeping commands `NOP`, `SRST`, `CLRERR`, `RDCR` (40_config_and_status.md section 1).
-/

namespace Sys2Proof.Machine

/-- `NOP` (R100). -/
def execNop (s : State) : Host.Outcome State Fault Refusal := respondOk 0 s

/-- `SRST`: the registers as after a hardware reset, both buffers kept (R101, R242). -/
def execSrst (s : State) : Host.Outcome State Fault Refusal := respondOk 0 (clearRegisters s)

/-- `CLRERR` (R102). -/
def execClrerr (s : State) : Host.Outcome State Fault Refusal := respondOk 0 (clearLatch s)

/-- `RDCR n` (R103). -/
def execRdcr (n : BitVec 8) (s : State) : Host.Outcome State Fault Refusal :=
  match controlRegister s n with
  | none => raise .controlRegisterNumber s
  | some v => respondOk v s

end Sys2Proof.Machine
end

