-- ==== Sys2Proof/Machine/Permutation.lean ====
section
/-!
DEFINITION. The commands that pass BLK through a table: `PERMIP`, `PERMFP`, `PERMIPI`, `PERMFPI` (41_permutation.md).
-/

namespace Sys2Proof.Machine

/-- `BLK <- permute(T, BLK)`, refused with `NotReadyError` before the construction (R124 to R127). -/
def permuteBlk (T : Table) (s : State) : Host.Outcome State Fault Refusal :=
  whenReady s (respondOk 0 { s with blk := permute T s.blk })

/-- `PERMIP` (R124). -/
def execPermip (s : State) : Host.Outcome State Fault Refusal := permuteBlk s.ip s

/-- `PERMFP` (R125). -/
def execPermfp (s : State) : Host.Outcome State Fault Refusal := permuteBlk s.fp s

/-- `PERMIPI` (R126). -/
def execPermipi (s : State) : Host.Outcome State Fault Refusal := permuteBlk s.ipi s

/-- `PERMFPI` (R127). -/
def execPermfpi (s : State) : Host.Outcome State Fault Refusal := permuteBlk s.fpi s

end Sys2Proof.Machine
end

