-- ==== Sys2Proof/Machine/Rounds.lean ====
section
/-!
DEFINITION. The commands of the key schedule and the round function: `RDRK` (42_key_schedule.md) and `ROUND`
(43_round_function.md).
-/

namespace Sys2Proof.Machine

/-- `RDRK rnd, idx` (R145). -/
def execRdrk (rnd : BitVec 4) (idx : BitVec 3) (s : State) : Host.Outcome State Fault Refusal :=
  whenReady s (respondOk ((atOffset (roundKey s.rk rnd) idx).setWidth 32) s)

/-- `ROUND rnd` (R162). -/
def execRound (rnd : BitVec 4) (s : State) : Host.Outcome State Fault Refusal :=
  whenReady s (respondOk 0 { s with blk := roundBlock s.blk (roundKey s.rk rnd) })

end Sys2Proof.Machine
end

