-- ==== Sys2Proof/Machine/Dispatch.lean ====
section
/-!
DEFINITION. One arm per command, each a direct call of its meaning.
-/

namespace Sys2Proof.Machine

def exec (i : Instr) (s : State) : Host.Outcome State Fault Refusal :=
  match i with
  | .nop => Sys2Proof.Machine.execNop s
  | .srst => Sys2Proof.Machine.execSrst s
  | .clrerr => Sys2Proof.Machine.execClrerr s
  | .rdcr n => Sys2Proof.Machine.execRdcr n s
  | .keyclr => Sys2Proof.Machine.execKeyclr s
  | .keypush d => Sys2Proof.Machine.execKeypush d s
  | .ldip idx val => Sys2Proof.Machine.execLdip idx val s
  | .ldfp idx val => Sys2Proof.Machine.execLdfp idx val s
  | .init => Sys2Proof.Machine.execInit s
  | .permip => Sys2Proof.Machine.execPermip s
  | .permfp => Sys2Proof.Machine.execPermfp s
  | .permipi => Sys2Proof.Machine.execPermipi s
  | .permfpi => Sys2Proof.Machine.execPermfpi s
  | .rdrk rnd idx => Sys2Proof.Machine.execRdrk rnd idx s
  | .round rnd => Sys2Proof.Machine.execRound rnd s
  | .ldblk idx d => Sys2Proof.Machine.execLdblk idx d s
  | .rdblk idx => Sys2Proof.Machine.execRdblk idx s
  | .xform dir => Sys2Proof.Machine.execXform dir s
  | .wrbuf addr d => Sys2Proof.Machine.execWrbuf addr d s
  | .setlen n => Sys2Proof.Machine.execSetlen n s
  | .run dir => Sys2Proof.Machine.execRun dir s
  | .rdobuf addr => Sys2Proof.Machine.execRdobuf addr s

end Sys2Proof.Machine
end

