-- ==== Sys2Proof/Machine/Step.lean ====
section
/-!
DEFINITION. One step of the engine: it takes the next event from the port and executes it whole (30_encoding.md R71, R72,
R90), or is idle (60_exceptions.md R230).
-/

namespace Sys2Proof.Machine

/-- One step. -/
def step (s : State) : Host.Outcome State Fault Refusal :=
  match nextEvent s with
  | none => idle s
  | some .hardwareReset => .next (hardwareReset (takeEvent s))
  | some (.command cw) =>
    match decode cw with
    | .command i => exec i (takeEvent s)
    | .illegal why => illegalCommand why (takeEvent s)

/-- `s` with the command word whose bits are the lowest `nbits` bits of `w` presented next on the port (log entry 4). -/
def State.withFetchWord (s : State) (nbits w : Nat) : State := presentWord s (tableWord nbits w)

end Sys2Proof.Machine
end

