-- ==== Sys2Proof/Machine/Asm.lean ====
section
/-!
DEFINITION. The assembler of SBCE: written commands, pseudo-instructions and lines of text (30_encoding.md R88, R89). It
makes command words and touches no state.
-/

namespace Sys2Proof.Machine

/-! ## Commands written with numbers (R88) -/

/-- The command a mnemonic and its operands make; none for the wrong number of operands. An operand is cut to its field
here, and `assemble` asks beforehand that it fits. -/
def buildInstr (c : Source) : Option Instr :=
  match c.mnemonic, c.operands with
  | .nop, [] => some .nop
  | .srst, [] => some .srst
  | .clrerr, [] => some .clrerr
  | .rdcr, [n] => some (.rdcr (BitVec.ofNat 8 n))
  | .keyclr, [] => some .keyclr
  | .keypush, [d] => some (.keypush (BitVec.ofNat 8 d))
  | .ldip, [idx, val] => some (.ldip (BitVec.ofNat 3 idx) (BitVec.ofNat 4 val))
  | .ldfp, [idx, val] => some (.ldfp (BitVec.ofNat 3 idx) (BitVec.ofNat 4 val))
  | .init, [] => some .init
  | .permip, [] => some .permip
  | .permfp, [] => some .permfp
  | .permipi, [] => some .permipi
  | .permfpi, [] => some .permfpi
  | .rdrk, [rnd, idx] => some (.rdrk (BitVec.ofNat 4 rnd) (BitVec.ofNat 3 idx))
  | .round, [rnd] => some (.round (BitVec.ofNat 4 rnd))
  | .ldblk, [idx, d] => some (.ldblk (BitVec.ofNat 3 idx) (BitVec.ofNat 8 d))
  | .rdblk, [idx] => some (.rdblk (BitVec.ofNat 3 idx))
  | .xform, [dir] => some (.xform (BitVec.ofNat 1 dir))
  | .wrbuf, [addr, d] => some (.wrbuf (BitVec.ofNat 16 addr) (BitVec.ofNat 8 d))
  | .setlen, [n] => some (.setlen (BitVec.ofNat 16 n))
  | .run, [dir] => some (.run (BitVec.ofNat 1 dir))
  | .rdobuf, [addr] => some (.rdobuf (BitVec.ofNat 16 addr))
  | _, _ => none

/-- A written command to a command: "an operand that does not fit its field's width is an assembly error, not a command"
(R88). None is the assembly error. -/
def assemble (c : Source) : Option Instr := if c.wellFormed then buildInstr c else none

/-! ## Pseudo-instructions (R89) -/

/-- `LOADKEY b0, ..., b(m-1)`, at least one byte. -/
def expandLoadKey (bs : List Nat) : Option (List Source) :=
  if bs.isEmpty then none else some (⟨.keyclr, []⟩ :: bs.map fun b => ⟨.keypush, [b]⟩)

/-- Eight operands to eight commands that write elements 0 to 7: `LOADIP`, `LOADFP`, `LOADBLK`. -/
def expandEight (m : Mnemonic) (vs : List Nat) : Option (List Source) :=
  if vs.length = 8 then some ((List.range 8).zipWith (fun i v => ⟨m, [i, v]⟩) vs) else none

/-- `LOADBUF a, b0, ..., b(m-1)`, at least one byte, at consecutive addresses. -/
def expandLoadBuf : List Nat → Option (List Source)
  | a :: b :: bs => some ((List.range (b :: bs).length).zipWith (fun j v => ⟨.wrbuf, [a + j, v]⟩) (b :: bs))
  | _ => none

/-- The pseudo-instructions by name (R89); none for another name or the wrong operands. -/
def expandPseudo (name : String) (operands : List Nat) : Option (List Source) :=
  if name = "LOADKEY" then expandLoadKey operands
  else if name = "LOADIP" then expandEight .ldip operands
  else if name = "LOADFP" then expandEight .ldfp operands
  else if name = "LOADBLK" then expandEight .ldblk operands
  else if name = "LOADBUF" then expandLoadBuf operands
  else if name = "ENCRYPT" ∧ operands = [] then some [⟨.run, [0]⟩]
  else if name = "DECRYPT" ∧ operands = [] then some [⟨.run, [1]⟩]
  else none

/-! ## Text (R88) -/

/-- The mnemonics as they are written, in upper case (R83, R88). -/
def mnemonicNames : List (String × Mnemonic) :=
  [ ("NOP", .nop), ("SRST", .srst), ("CLRERR", .clrerr), ("RDCR", .rdcr), ("KEYCLR", .keyclr),
    ("KEYPUSH", .keypush), ("LDIP", .ldip), ("LDFP", .ldfp), ("INIT", .init), ("PERMIP", .permip),
    ("PERMFP", .permfp), ("PERMIPI", .permipi), ("PERMFPI", .permfpi), ("RDRK", .rdrk), ("ROUND", .round),
    ("LDBLK", .ldblk), ("RDBLK", .rdblk), ("XFORM", .xform), ("WRBUF", .wrbuf), ("SETLEN", .setlen),
    ("RUN", .run), ("RDOBUF", .rdobuf) ]

/-- The control registers by name, number 0 first (R88, R33 to R42). -/
def controlRegisterNames : List String :=
  ["ID", "STATUS", "ERR", "KLEN", "LEN", "OLEN", "IPTAB", "FPTAB", "KEYMAX", "BUFMAX"]

/-- A digit in base 10 or 16; hexadecimal digits in either case (log entry 14). -/
def digitValue (base : Nat) (c : Char) : Option Nat :=
  let n := c.toNat
  let v := if 48 ≤ n ∧ n ≤ 57 then n - 48
    else if 65 ≤ n ∧ n ≤ 70 then n - 55
    else if 97 ≤ n ∧ n ≤ 102 then n - 87
    else base
  if v < base then some v else none

/-- The digits of a numeral, most significant first; none for a character that is no digit. -/
def digitsValue (base : Nat) : List Char → Nat → Option Nat
  | [], acc => some acc
  | c :: cs, acc => (digitValue base c).bind fun v => digitsValue base cs (base * acc + v)

/-- A decimal numeral, or a hexadecimal numeral starting `0x` (R88). -/
def numeral : List Char → Option Nat
  | '0' :: 'x' :: c :: cs => digitsValue 16 (c :: cs) 0
  | c :: cs => digitsValue 10 (c :: cs) 0
  | [] => none

/-- An operand: a numeral, or, for `RDCR` alone, a control register's name (R88). -/
def operandValue (name : String) (cs : List Char) : Option Nat :=
  match numeral cs with
  | some v => some v
  | none => if name = "RDCR" then controlRegisterNames.idxOf? (String.ofList cs) else none

/-- A blank: a space or a tab. -/
def isBlank (c : Char) : Bool := c == ' ' || c == '\t'

/-- A list of characters without the blanks at its two ends. -/
def trimBlanks (cs : List Char) : List Char := ((cs.dropWhile isBlank).reverse.dropWhile isBlank).reverse

/-- The pieces of a text between commas. -/
def splitAtCommas : List Char → List (List Char)
  | [] => [[]]
  | c :: cs =>
    match c, splitAtCommas cs with
    | ',', pieces => [] :: pieces
    | c, piece :: pieces => (c :: piece) :: pieces
    | c, [] => [[c]]

/-- The operands of a line: nothing, or pieces between commas (R88). -/
def operandTexts (cs : List Char) : List (List Char) :=
  if trimBlanks cs = [] then [] else (splitAtCommas cs).map trimBlanks

/-- The written commands of one line: none for an assembly error, no command for a blank or comment line (R88, R89). -/
def lineSources (line : List Char) : Option (List Source) :=
  let text := trimBlanks (line.takeWhile (· != ';'))
  if text = [] then some [] else
    let name := String.ofList (text.takeWhile fun c => !isBlank c)
    ((operandTexts (text.dropWhile fun c => !isBlank c)).mapM (operandValue name)).bind fun operands =>
      match mnemonicNames.lookup name with
      | some m => some [⟨m, operands⟩]
      | none => expandPseudo name operands

/-- The commands of one line. -/
def assembleLine (line : List Char) : Option (List Instr) := (lineSources line).bind (·.mapM assemble)

/-- The lines of a text, one command or pseudo-instruction a line (R88). -/
def textLines : List Char → List (List Char)
  | [] => [[]]
  | c :: cs =>
    match c, textLines cs with
    | '\n', lines => [] :: lines
    | c, line :: lines => (c :: line) :: lines
    | c, [] => [[c]]

/-- The command words of a text; none where some line is an assembly error. -/
def assembleText (text : List Char) : Option (List Word) :=
  ((textLines text).mapM assembleLine).map fun lines => (lines.flatten).map encode

end Sys2Proof.Machine
end

