-- ==== Sys2Proof/Safety.lean ====
section
/-!
DEFINITION. The terms claims about SBCE use: the state invariant (10_state.md R43), what a host can tell two states apart
by (10_state.md R27, R28, R30, U11), the reserved bits of the formats (30_encoding.md R74 to R81), and the bring-up
sequence (70_reset_and_hazards.md R243).
-/

namespace Sys2Proof.Machine

/-- The construction the engine holds is that of its configuration: both tables valid, the key non-empty, and `RK`, `IPI`,
`FPI` derived from them (R43). -/
def constructed (s : State) : Prop :=
  ∃ (hip : validTable s.ip) (hfp : validTable s.fp) (hkey : 0 < s.key.length),
    s.rk = schedule s.key hkey ∧ s.ipi = invertTable s.ip hip ∧ s.fpi = invertTable s.fp hfp

/-- What R43 says of every reachable state. -/
structure SpecInv (s : State) : Prop where
  construction : s.ready = true → constructed s
  klen_le : s.klen ≤ s.params.keyMax
  len_le : s.len.toNat ≤ s.params.bufMax
  olen_le : s.olen.toNat ≤ s.params.bufMax
  olen_aligned : s.olen.toNat % 8 = 0
  errInfo_zero : s.err = 0 → s.errInfo = 0

/-- The invariant of the model: R43, the parameters within their bounds (R9, R10), the latched code one of R211, both
buffers in canonical form and inside their space (R50), and every valid output byte written (R195). -/
structure StateInv (s : State) : Prop extends SpecInv s where
  params_wf : s.params.wf
  err_le : s.err.toNat ≤ 5
  ibuf_wf : s.ibuf.wf
  obuf_wf : s.obuf.wf
  ibuf_within : ∀ c ∈ s.ibuf, c.1 < s.params.bufMax
  obuf_within : ∀ c ∈ s.obuf, c.1 < s.params.bufMax
  output_written : ∀ a < s.olen.toNat, s.obuf.lookup a ≠ none

/-- Two states no sequence of commands can tell apart: they agree on everything except `RK`, `IPI`, `FPI` while `READY` = 0
and output bytes at or above `OLEN` (R27, R28, R30, U11). -/
structure ObsEq (s t : State) : Prop where
  key : s.key = t.key
  ip : s.ip = t.ip
  fp : s.fp = t.fp
  ready : s.ready = t.ready
  rk : s.ready = true → s.rk = t.rk
  ipi : s.ready = true → s.ipi = t.ipi
  fpi : s.ready = true → s.fpi = t.fpi
  blk : s.blk = t.blk
  ibuf : s.ibuf = t.ibuf
  len : s.len = t.len
  output : ∀ a < s.olen.toNat, byteAt s .obuf a = byteAt t .obuf a
  olen : s.olen = t.olen
  err : s.err = t.err
  errInfo : s.errInfo = t.errInfo
  params : s.params = t.params
  port : s.port = t.port
  resp : s.resp = t.resp
  resets : s.resets = t.resets

/-- The bits of [23:0] a defined opcode's format assigns to no field, read from the format tables (R74 to R81); none for
an undefined opcode (R84). -/
def reservedBits (op : BitVec 8) : Option Word :=
  if op ∈ [0x00#8, 0x01#8, 0x02#8, 0x10#8, 0x14#8, 0x20#8, 0x21#8, 0x22#8, 0x23#8] then some 0x00FFFFFF  -- Z
  else if op ∈ [0x03#8, 0x11#8] then some 0x00FFFF00  -- B
  else if op = 0x50#8 then some 0  -- A
  else if op ∈ [0x51#8, 0x53#8] then some 0x000000FF  -- L
  else if op ∈ [0x12#8, 0x13#8] then some 0x00FFF8F0  -- T
  else if op = 0x40#8 then some 0x00FFF800  -- X
  else if op = 0x41#8 then some 0x00FFF8FF  -- I
  else if op = 0x28#8 then some 0x00F0F8FF  -- R
  else if op = 0x30#8 then some 0x00F0FFFF  -- K
  else if op ∈ [0x42#8, 0x52#8] then some 0x00FFFFFE  -- D
  else none

/-- The commands that use the tables or the round keys and so need `READY` = 1 (R25, R211, R214). -/
def needsReady : Instr → Bool
  | .permip | .permfp | .permipi | .permfpi | .rdrk _ _ | .round _ | .xform _ | .run _ => true
  | .nop | .srst | .clrerr | .rdcr _ | .keyclr | .keypush _ | .ldip _ _ | .ldfp _ _ | .init => false
  | .ldblk _ _ | .rdblk _ | .wrbuf _ _ | .setlen _ | .rdobuf _ => false

/-- The (code, sub-cause) pairs a command can answer with when it fails (R211). -/
def possibleErrors : Instr → List (Byte × Word)
  | .init => [(1, 1), (1, 2), (1, 3)]
  | .run _ => [(3, 0), (2, 1), (2, 2), (2, 3), (2, 4), (2, 5), (2, 6), (2, 7)]
  | .permip | .permfp | .permipi | .permfpi | .rdrk _ _ | .round _ | .xform _ => [(3, 0)]
  | .rdcr _ => [(5, 1)]
  | .wrbuf _ _ | .rdobuf _ => [(5, 2)]
  | .setlen _ => [(5, 3)]
  | .keypush _ => [(5, 4)]
  | .nop | .srst | .clrerr | .keyclr | .ldip _ _ | .ldfp _ _ | .ldblk _ _ | .rdblk _ => []

/-- `t` is the state after a command that failed with this code and sub-cause in state `s`: the latch written if it held no
error, the response carrying the error, and nothing else changed (R216, R220). -/
def failsWith (s t : State) (code info : Byte) : Prop :=
  t = { s with
    err := if s.err = 0 then code else s.err
    errInfo := if s.err = 0 then info else s.errInfo
    resp := some ⟨code, info.setWidth 32⟩ }

/-- Every byte of both buffers reads in `t` as it did in `s`. -/
def sameBytes (s t : State) : Prop := ∀ sp a, byteAt t sp a = byteAt s sp a

/-- `n` steps one after the other, stopping where a step does not answer a next state. -/
def runSteps : Nat → State → Host.Outcome State Fault Refusal
  | 0, s => .next s
  | n + 1, s =>
    match step s with
    | .next t => runSteps n t
    | .fault f => .fault f
    | .refused r => .refused r

/-- Commands as the host puts them on the port. -/
def commands (is : List Instr) : List PortEvent := is.map fun i => .command (encode i)

/-- The bring-up sequence: load IP, load FP, load the key, `INIT` (R243). -/
def bringUp (T U : Table) (K : List Byte) : List Instr :=
  (List.finRange 8).map (fun i => .ldip (BitVec.ofNat 3 i.val) T[i]) ++
  (List.finRange 8).map (fun i => .ldfp (BitVec.ofNat 3 i.val) U[i]) ++
  [.keyclr] ++ K.map .keypush ++ [.init]

end Sys2Proof.Machine
end

