-- ==== Sys2Proof/Certificates/Slice0/Obligations.lean ====
section
/-!
DEFINITION. The statements about SBCE for the provers. Each says which rules of spec/ it formalises. A next state written
`{ s with … }` is the frame: every field it does not name is that of `s`.
-/

open Sys2Proof Sys2Proof.Machine

/-! ## The step, the port and the encoding (30_encoding.md) -/

/-- R71, R90, R230: the engine takes the next command word from the port and executes the command it decodes to; with
nothing presented it takes no action and holds its state. The list of events on the port is the model's (log entry 2). -/
def Obligations.StepRunsTheDecodedCommand : Prop :=
  ∀ (s : State) (cw : Word) (rest : List PortEvent) (i : Instr),
    (s.port = .command cw :: rest → decode cw = .command i → i.wellFormed = true →
      step s = exec i { s with port := rest }) ∧
    (s.port = [] → step s = .next s)

/-- Words written out from the format tables, one per format (R74 to R81). -/
def Obligations.FormatWordsDecodeAsWritten : Prop :=
  decode 0x14000000 = .command .init ∧ decode 0x0300000A = .command (.rdcr 10) ∧
  decode 0x500FFFFF = .command (.wrbuf 4095 0xFF) ∧ decode 0x53000800 = .command (.rdobuf 8) ∧
  decode 0x13000701 = .command (.ldfp 7 1) ∧ decode 0x40000343 = .command (.ldblk 3 0x43) ∧
  decode 0x41000100 = .command (.rdblk 1) ∧ decode 0x28010700 = .command (.rdrk 1 7) ∧
  decode 0x300F0000 = .command (.round 15) ∧ decode 0x52000001 = .command (.run 1)

/-- R90: every command with in-width operands has a word, and that word decodes to it. -/
def Obligations.DecodeInvertsEncode : Prop :=
  ∀ i : Instr, i.wellFormed = true → decode (encode i) = .command i

/-- R84, R85, R86, R90: every one of the 2^32 words is an undefined opcode, a defined opcode with a reserved bit set, or
the one word of one command. -/
def Obligations.EveryWordHasExactlyOneMeaning : Prop :=
  ∀ w : Word,
    (reservedBits (opField w) = none → decode w = .illegal .undefinedOpcode) ∧
    ∀ m, reservedBits (opField w) = some m →
      (w &&& m ≠ 0 → decode w = .illegal .reservedBit) ∧
      (w &&& m = 0 → ∃ i : Instr, decode w = .command i ∧ encode i = w)

/-- R84, R85, R215: a word that is no command raises `IllegalCommandError` with its sub-cause and changes nothing but the
latch. -/
def Obligations.IllegalWordsOnlyTouchTheLatch : Prop :=
  ∀ (s : State) (cw : Word) (rest : List PortEvent), s.port = .command cw :: rest →
    (reservedBits (opField cw) = none → ∃ t, step s = .next t ∧ failsWith { s with port := rest } t 4 1) ∧
    ∀ m, reservedBits (opField cw) = some m → cw &&& m ≠ 0 →
      ∃ t, step s = .next t ∧ failsWith { s with port := rest } t 4 2

/-- R72, R73, R211: every command word produces exactly one response, whose code is 0 to 5 (and 4 for a word that is no
command), and leaves the engine able to take the next event. -/
def Obligations.EveryCommandWordIsAnswered : Prop :=
  ∀ (s : State) (cw : Word) (rest : List PortEvent), s.port = .command cw :: rest →
    ∃ t r, step s = .next t ∧ t.resp = some r ∧ r.code.toNat ≤ 5 ∧ t.port = rest ∧
      ∀ why, decode cw = .illegal why → r.code = 4

/-- R88: an assembled command has exactly the operands that were written; one that does not fit is an error. -/
def Obligations.AssemblerKeepsTheOperands : Prop :=
  ∀ (c : Source) (i : Instr), assemble c = some i → i.toSource = c

/-! ## Housekeeping (40_config_and_status.md section 1) -/

/-- R100. -/
def Obligations.NopOnlyResponds : Prop :=
  encode .nop = 0x00000000#32 ∧
  ∀ s : State, exec .nop s = .next { s with resp := some ⟨0, 0⟩ }

/-- R101, R242: `SRST` brings every register to its reset value and keeps the bytes of both buffers. -/
def Obligations.SrstClearsRegistersAndKeepsBuffers : Prop :=
  encode .srst = 0x01000000#32 ∧
  ∀ s : State, ∃ t, exec .srst s = .next t ∧ t.resp = some ⟨0, 0⟩ ∧
    t.klen = 0 ∧ (∀ i : Fin 8, t.ip[i] = 0 ∧ t.fp[i] = 0 ∧ t.blk[i] = 0) ∧ t.ready = false ∧
    t.len = 0 ∧ t.olen = 0 ∧ t.err = 0 ∧ t.errInfo = 0 ∧ sameBytes s t ∧
    t = { s with
      key := t.key, ip := t.ip, fp := t.fp, blk := t.blk, ready := t.ready, len := t.len, olen := t.olen
      err := t.err, errInfo := t.errInfo, resp := t.resp }

/-- R101: after `SRST` no command's result depends on the old key; nor on the old tables, block, output or error. Two
engines that agree on IBUF, the parameters, the port and the model's count of resets (log entry 6) cannot be told apart
afterwards. -/
def Obligations.SrstErasesTheKey : Prop :=
  ∀ s t : State, s.ibuf = t.ibuf → s.params = t.params → s.port = t.port → s.resets = t.resets →
    ∃ s' t', exec .srst s = .next s' ∧ exec .srst t = .next t' ∧ ObsEq s' t'

/-- R102. -/
def Obligations.ClrerrClearsTheLatch : Prop :=
  encode .clrerr = 0x02000000#32 ∧
  ∀ s : State, exec .clrerr s = .next { s with err := 0, errInfo := 0, resp := some ⟨0, 0⟩ }

/-- R31 to R42, R103: what each of the ten control registers reads as, bit by bit where it is made of fields, and nothing
changes but the response; a number above 9 selects no register and raises `RangeError` 1; after reset `STATUS` reads as
`DECM` alone and registers 2 to 7 read 0. -/
def Obligations.RdcrReadsTheControlRegisters : Prop :=
  (∀ n : BitVec 8, encode (.rdcr n) = 0x03000000#32 + n.setWidth 32) ∧
  (∀ (s : State) (n : BitVec 8), 9 < n.toNat → ∃ t, exec (.rdcr n) s = .next t ∧ failsWith s t 5 1) ∧
  (∀ (s : State) (n : BitVec 8), n.toNat ≤ 9 → s.params.wf → s.klen ≤ s.params.keyMax →
    ∃ v : Word, exec (.rdcr n) s = .next { s with resp := some ⟨0, v⟩ } ∧
      (n = 0 → v = 0x53420810) ∧
      (n = 1 → v.getLsbD 0 = s.ready ∧ (v.getLsbD 1 = true ↔ s.err ≠ 0) ∧
        (v.getLsbD 2 = true ↔ s.params.decMode = .inverse) ∧ v.extractLsb' 3 29 = 0) ∧
      (n = 2 → v.extractLsb' 0 8 = s.err ∧ v.extractLsb' 8 8 = s.errInfo ∧ v.extractLsb' 16 16 = 0) ∧
      (n = 3 → v.toNat = s.klen) ∧
      (n = 4 → v.toNat = s.len.toNat) ∧
      (n = 5 → v.toNat = s.olen.toNat) ∧
      (n = 6 → ∀ i : Fin 8, v.extractLsb' (4 * i.val) 4 = s.ip[i]) ∧
      (n = 7 → ∀ i : Fin 8, v.extractLsb' (4 * i.val) 4 = s.fp[i]) ∧
      (n = 8 → v.toNat = s.params.keyMax) ∧
      (n = 9 → v.toNat = s.params.bufMax)) ∧
  ∀ (p : Params) (n : BitVec 8), 1 ≤ n.toNat → n.toNat ≤ 7 →
    exec (.rdcr n) (State.resetWith p) = .next { State.resetWith p with
      resp := some ⟨0, if n = 1 ∧ p.decMode = .inverse then 4 else 0⟩ }

/-! ## Configuration and construction (40_config_and_status.md sections 2 and 3) -/

/-- R104, R110. -/
def Obligations.KeyclrEmptiesTheKey : Prop :=
  encode .keyclr = 0x10000000#32 ∧
  ∀ s : State, ∃ t, exec .keyclr s = .next t ∧ t.klen = 0 ∧ sameBytes s t ∧
    t = { s with key := t.key, ready := false, resp := some ⟨0, 0⟩ }

/-- R105, R110: a byte is appended to the key, or the full store refuses it and nothing but the latch changes. -/
def Obligations.KeypushAppendsOneByte : Prop :=
  (∀ d : BitVec 8, encode (.keypush d) = 0x11000000#32 + d.setWidth 32) ∧
  ∀ (s : State) (d : BitVec 8), ∃ t, exec (.keypush d) s = .next t ∧
    if s.klen = s.params.keyMax then failsWith s t 5 4
    else t.klen = s.klen + 1 ∧ t.key[s.klen]? = some d ∧ (∀ n < s.klen, t.key[n]? = s.key[n]?) ∧ sameBytes s t ∧
      t = { s with key := t.key, ready := false, resp := some ⟨0, 0⟩ }

/-- R106, R110: one entry of IP takes the raw value, the other seven keep theirs. -/
def Obligations.LdipWritesOneEntry : Prop :=
  (∀ (idx : BitVec 3) (val : BitVec 4),
    encode (.ldip idx val) = 0x12000000#32 + idx.setWidth 32 * 0x100 + val.setWidth 32) ∧
  ∀ (s : State) (idx : BitVec 3) (val : BitVec 4), ∃ t, exec (.ldip idx val) s = .next t ∧
    (∀ i : Fin 8, t.ip[i] = if i.val = idx.toNat then val else s.ip[i]) ∧ sameBytes s t ∧
    t = { s with ip := t.ip, ready := false, resp := some ⟨0, 0⟩ }

/-- R107, R110: as `LDIP`, with FP. -/
def Obligations.LdfpWritesOneEntry : Prop :=
  (∀ (idx : BitVec 3) (val : BitVec 4),
    encode (.ldfp idx val) = 0x13000000#32 + idx.setWidth 32 * 0x100 + val.setWidth 32) ∧
  ∀ (s : State) (idx : BitVec 3) (val : BitVec 4), ∃ t, exec (.ldfp idx val) s = .next t ∧
    (∀ i : Fin 8, t.fp[i] = if i.val = idx.toNat then val else s.fp[i]) ∧ sameBytes s t ∧
    t = { s with fp := t.fp, ready := false, resp := some ⟨0, 0⟩ }

/-- R121: a valid table is a bijection on 1 to 8: each position appears exactly once. -/
def Obligations.ValidTableIsABijection : Prop :=
  ∀ T : Table, validTable T ↔
    (∀ i : Fin 8, 1 ≤ T[i].toNat ∧ T[i].toNat ≤ 8) ∧ ∀ p : Nat, 1 ≤ p → p ≤ 8 → ∃! i : Fin 8, T[i].toNat = p

/-- R108, R140, and R122, which the spec marks as derived: the construction: `RK[i][j]` is `KEY[(i + j) mod KLEN]`, and
entry `T[i] - 1` of each inverse table is `i + 1`. -/
def Obligations.InitDerivesKeysAndInverseTables : Prop :=
  encode .init = 0x14000000#32 ∧
  ∀ s : State, validTable s.ip → validTable s.fp → 0 < s.klen →
    ∃ t, exec .init s = .next t ∧
      (∀ (i : Fin 16) (j : Fin 8), s.key[(i.val + j.val) % s.klen]? = some (t.rk[i])[j]) ∧
      (∀ i : Fin 8, t.ipi[s.ip[i].toNat - 1]? = some (BitVec.ofNat 4 (i.val + 1))) ∧
      (∀ i : Fin 8, t.fpi[s.fp[i].toNat - 1]? = some (BitVec.ofNat 4 (i.val + 1))) ∧ sameBytes s t ∧
      t = { s with rk := t.rk, ipi := t.ipi, fpi := t.fpi, ready := true, resp := some ⟨0, 0⟩ }

/-- R108, R212, R218: the three checks of `INIT`, the lowest sub-cause first; a failing one writes nothing but the
latch. -/
def Obligations.InitReportsTheFirstBadPart : Prop :=
  ∀ s : State, (¬ validTable s.ip ∨ ¬ validTable s.fp ∨ s.klen = 0) →
    ∃ t, exec .init s = .next t ∧
      failsWith s t 1 (if ¬ validTable s.ip then 1 else if ¬ validTable s.fp then 2 else 3)

/-- R108, derived in R109 (a) and (c): while `READY` = 1 `INIT` succeeds and changes nothing. -/
def Obligations.InitWhileReadyChangesNothing : Prop :=
  ∀ s : State, StateInv s → s.ready = true → exec .init s = .next { s with resp := some ⟨0, 0⟩ }

/-- R25, R110: only `INIT` raises `READY`, and only a configuration write or `SRST` drops it. -/
def Obligations.ReadyRisesAndFallsOnlyAsSaid : Prop :=
  ∀ (i : Instr) (s t : State), exec i s = .next t →
    (s.ready = false → t.ready = true → i = .init) ∧
    (s.ready = true → t.ready = false →
      i = .srst ∨ i = .keyclr ∨ (∃ d, i = .keypush d) ∨ (∃ idx val, i = .ldip idx val) ∨ ∃ idx val, i = .ldfp idx val) ∧
    (∀ d, t.resp = some ⟨0, d⟩ →
      (i = .keyclr ∨ (∃ d, i = .keypush d) ∨ (∃ idx val, i = .ldip idx val) ∨ ∃ idx val, i = .ldfp idx val) →
      t.ready = false)

/-- R43, R144, R244: no command changes the key or a table and leaves `READY` = 1, and none but `INIT` writes the round
keys and the inverse tables. -/
def Obligations.ConfigurationIsFrozenWhileReady : Prop :=
  ∀ (i : Instr) (s t : State), exec i s = .next t →
    (t.ready = true → t.key = s.key ∧ t.ip = s.ip ∧ t.fp = s.fp) ∧
    (i ≠ .init → t.rk = s.rk ∧ t.ipi = s.ipi ∧ t.fpi = s.fpi)

/-- R243: from any state the bring-up sequence ends configured with the given tables and key. The list of events on the port
is the model's (log entry 2). -/
def Obligations.BringUpConfiguresTheEngine : Prop :=
  ∀ (s : State) (T U : Table) (K : List Byte) (rest : List PortEvent),
    s.params.wf → validTable T → validTable U → 0 < K.length → K.length ≤ s.params.keyMax →
    s.port = commands (bringUp T U K) ++ rest →
    ∃ t, runSteps (bringUp T U K).length s = .next t ∧ t.ready = true ∧ constructed t ∧
      t.ip = T ∧ t.fp = U ∧ t.key = K ∧ t.port = rest ∧ t.resp = some ⟨0, 0⟩ ∧
      t.blk = s.blk ∧ t.len = s.len ∧ t.olen = s.olen ∧ sameBytes s t

/-! ## The permutation network (41_permutation.md) -/

/-- R120, R124, R125: `PERMIP` and `PERMFP` gather: output offset `i` receives the byte at 1-based position `T[i]`, all
read before any is written; while `READY` = 0 both are refused. -/
def Obligations.PermutationsGatherThroughTheTables : Prop :=
  encode .permip = 0x20000000#32 ∧ encode .permfp = 0x21000000#32 ∧
  (∀ s : State, s.ready = false →
    (∃ t, exec .permip s = .next t ∧ failsWith s t 3 0) ∧ ∃ t, exec .permfp s = .next t ∧ failsWith s t 3 0) ∧
  ∀ s : State, s.ready = true →
    (validTable s.ip → ∃ t, exec .permip s = .next t ∧
      (∀ i : Fin 8, s.blk[s.ip[i].toNat - 1]? = some t.blk[i]) ∧ sameBytes s t ∧
      t = { s with blk := t.blk, resp := some ⟨0, 0⟩ }) ∧
    (validTable s.fp → ∃ t, exec .permfp s = .next t ∧
      (∀ i : Fin 8, s.blk[s.fp[i].toNat - 1]? = some t.blk[i]) ∧ sameBytes s t ∧
      t = { s with blk := t.blk, resp := some ⟨0, 0⟩ })

/-- R126, R127, R28 (and R122, which the spec marks as derived): with the inverse tables derived, `PERMIPI` and `PERMFPI`
put byte `i` where the table took it from. -/
def Obligations.InversePermutationsScatterThroughTheTables : Prop :=
  encode .permipi = 0x22000000#32 ∧ encode .permfpi = 0x23000000#32 ∧
  ∀ s : State, s.ready = true → constructed s →
    (∃ t, exec .permipi s = .next t ∧
      (∀ i : Fin 8, t.blk[s.ip[i].toNat - 1]? = some s.blk[i]) ∧ sameBytes s t ∧
      t = { s with blk := t.blk, resp := some ⟨0, 0⟩ }) ∧
    ∃ t, exec .permfpi s = .next t ∧
      (∀ i : Fin 8, t.blk[s.fp[i].toNat - 1]? = some s.blk[i]) ∧ sameBytes s t ∧
      t = { s with blk := t.blk, resp := some ⟨0, 0⟩ }

/-- R123: the inverse law, both ways, and the inverse of the inverse. -/
def Obligations.InverseTableUndoesTheTable : Prop :=
  ∀ (T : Table) (h : validTable T),
    (∀ B : Block, permute (invertTable T h) (permute T B) = B ∧ permute T (permute (invertTable T h) B) = B) ∧
    ∃ h' : validTable (invertTable T h), invertTable (invertTable T h) h' = T

/-- The properties of R128 (a) to (d): identity, same bytes, linearity, composition. -/
def Obligations.PermuteIsALinearRearrangement : Prop :=
  (∀ B : Block, permute #v[1, 2, 3, 4, 5, 6, 7, 8] B = B) ∧
  ∀ T : Table, validTable T →
    (∀ B : Block, (permute T B).toList.Perm B.toList) ∧
    (∀ A B : Block, permute T (xorBlock A B) = xorBlock (permute T A) (permute T B)) ∧
    ∀ U W : Table, validTable U → (∀ i : Fin 8, T[U[i].toNat - 1]? = some W[i]) →
      ∀ B : Block, permute U (permute T B) = permute W B

/-! ## Key schedule and round function (42_key_schedule.md, 43_round_function.md) -/

/-- R145: `RDRK` returns the round-key byte `RK[rnd][idx]`, which is `KEY[(rnd + idx) mod KLEN]` when the engine holds the
construction of its key; while `READY` = 0 it is refused. -/
def Obligations.RdrkReturnsTheScheduledKeyByte : Prop :=
  (∀ (rnd : BitVec 4) (idx : BitVec 3),
    encode (.rdrk rnd idx) = 0x28000000#32 + rnd.setWidth 32 * 0x10000 + idx.setWidth 32 * 0x100) ∧
  (∀ (s : State) (rnd : BitVec 4) (idx : BitVec 3), s.ready = false →
    ∃ t, exec (.rdrk rnd idx) s = .next t ∧ failsWith s t 3 0) ∧
  ∀ (s : State) (rnd : BitVec 4) (idx : BitVec 3), s.ready = true →
    ∃ b : Byte, (s.rk[rnd.toNat]?.bind fun K => K[idx.toNat]?) = some b ∧
      (constructed s → s.key[(rnd.toNat + idx.toNat) % s.klen]? = some b) ∧
      exec (.rdrk rnd idx) s = .next { s with resp := some ⟨0, b.setWidth 32⟩ }

/-- Derived in R142 and R143 from R140: each round key is the one before it shifted by one byte, the round keys repeat
with period `L`, and with more than 22 bytes only the first 23 matter. -/
def Obligations.RoundKeysAreARotatingWindow : Prop :=
  ∀ (K : List Byte) (h : 0 < K.length),
    (∀ (i : Fin 15) (j : Fin 7),
      ((schedule K h)[i.val + 1])[j.val] = ((schedule K h)[i.val])[j.val + 1]) ∧
    (∀ (i : Nat) (hi : i + K.length < 16), (schedule K h)[i + K.length] = (schedule K h)[i]) ∧
    ∀ (K' : List Byte) (h' : 0 < K'.length), 22 < K.length → 22 < K'.length → K.take 23 = K'.take 23 →
      schedule K' h' = schedule K h

/-- R160, R162: `ROUND rnd` XORs the chosen round key into BLK, byte by byte; while `READY` = 0 it is refused. -/
def Obligations.RoundXorsTheChosenKey : Prop :=
  (∀ rnd : BitVec 4, encode (.round rnd) = 0x30000000#32 + rnd.setWidth 32 * 0x10000) ∧
  (∀ (s : State) (rnd : BitVec 4), s.ready = false → ∃ t, exec (.round rnd) s = .next t ∧ failsWith s t 3 0) ∧
  ∀ (s : State) (rnd : BitVec 4), s.ready = true →
    ∃ t, exec (.round rnd) s = .next t ∧
      (∀ j : Fin 8, s.rk[rnd.toNat]?.map (fun K => s.blk[j] ^^^ K[j]) = some t.blk[j]) ∧ sameBytes s t ∧
      t = { s with blk := t.blk, resp := some ⟨0, 0⟩ }

/-- R161: the round function is self-inverse; on the machine, `ROUND rnd` twice restores BLK (R162). -/
def Obligations.RoundTwiceRestoresTheBlock : Prop :=
  (∀ B K : Block, roundBlock (roundBlock B K) K = B) ∧
  ∀ (s : State) (rnd : BitVec 4), s.ready = true →
    ∃ t u, exec (.round rnd) s = .next t ∧ exec (.round rnd) t = .next u ∧ u.blk = s.blk

/-! ## The block engine (44_block_engine.md) -/

/-- R179, R180: `LDBLK` writes one byte of BLK in any state, and `RDBLK` reads one. -/
def Obligations.BlockBytesAreWrittenAndRead : Prop :=
  (∀ (idx : BitVec 3) (d : BitVec 8),
    encode (.ldblk idx d) = 0x40000000#32 + idx.setWidth 32 * 0x100 + d.setWidth 32) ∧
  (∀ idx : BitVec 3, encode (.rdblk idx) = 0x41000000#32 + idx.setWidth 32 * 0x100) ∧
  ∀ (s : State) (idx : BitVec 3),
    (∀ d : BitVec 8, ∃ t, exec (.ldblk idx d) s = .next t ∧
      (∀ i : Fin 8, t.blk[i] = if i.val = idx.toNat then d else s.blk[i]) ∧ sameBytes s t ∧
      t = { s with blk := t.blk, resp := some ⟨0, 0⟩ }) ∧
    ∃ b : Byte, s.blk[idx.toNat]? = some b ∧
      exec (.rdblk idx) s = .next { s with resp := some ⟨0, b.setWidth 32⟩ }

/-- R170, R172 to R175, R181: `XFORM dir` applies `engine_inv` when `DEC_MODE` is `INVERSE` and `dir` = 1 and `engine_fwd`
otherwise, written out stage by stage; BLK alone changes; while `READY` = 0 it is refused. -/
def Obligations.XformAppliesTheSelectedTransform : Prop :=
  (∀ dir : BitVec 1, encode (.xform dir) = 0x42000000#32 + dir.setWidth 32) ∧
  (∀ (s : State) (dir : BitVec 1), s.ready = false → ∃ t, exec (.xform dir) s = .next t ∧ failsWith s t 3 0) ∧
  ∀ (s : State) (dir : BitVec 1), s.ready = true →
    ∃ t, exec (.xform dir) s = .next t ∧ sameBytes s t ∧ t = { s with blk := t.blk, resp := some ⟨0, 0⟩ } ∧
      ∃ A : Nat → Block,
        (∀ i : Fin 16, ∀ j : Fin 8, (A (i.val + 1))[j] = (A i.val)[j] ^^^
          (if s.params.decMode = .inverse ∧ dir = 1 then s.rk[15 - i.val] else s.rk[i.val])[j]) ∧
        if s.params.decMode = .inverse ∧ dir = 1 then A 0 = permute s.fpi s.blk ∧ t.blk = permute s.ipi (A 16)
        else A 0 = permute s.ip s.blk ∧ t.blk = permute s.fp (A 16)

/-- R174: under `FORWARD` the direction flag has no effect on `XFORM` or on `RUN`. -/
def Obligations.ForwardModeIgnoresTheFlag : Prop :=
  ∀ (s : State) (dir dir' : BitVec 1), s.params.decMode = .forward →
    exec (.xform dir) s = exec (.xform dir') s ∧ exec (.run dir) s = exec (.run dir') s

/-- R162, R170, R171: the stage commands `PERMIP`, `ROUND 0` to `ROUND 15`, `PERMFP` leave the block that `XFORM 0`
leaves. The list of events on the port is the model's (log entry 2). -/
def Obligations.StagesComposeToXform : Prop :=
  ∀ (s : State) (rest : List PortEvent), s.ready = true →
    s.port = commands ([.permip] ++ (List.range 16).map (fun i => .round (BitVec.ofNat 4 i)) ++ [.permfp]) ++ rest →
    ∃ t u, runSteps 18 s = .next t ∧ exec (.xform 0) s = .next u ∧ t.blk = u.blk ∧
      t = { u with port := rest }

/-- Derived in R177 from R170 and R140: the sixteen rounds are one XOR with the mask, and for a key of 1, 2, 4 or 8 bytes
the mask is zero, so the transform does not depend on the key. -/
def Obligations.SixteenRoundsAreOneMask : Prop :=
  (∀ (B : Block) (IP FP : Table) (RK : RoundKeys),
    engineFwd B IP FP RK = permute FP (xorBlock (permute IP B) (maskOf RK))) ∧
  ∀ (K : List Byte) (h : 0 < K.length), K.length ∈ [1, 2, 4, 8] →
    ∀ (B : Block) (IP FP : Table), engineFwd B IP FP (schedule K h) = permute FP (permute IP B)

/-- Derived in R178: `engine_inv` undoes `engine_fwd` and the other way round, so `engine_fwd` is a bijection. -/
def Obligations.EngineInverseUndoesEngineForward : Prop :=
  ∀ (IP FP : Table) (hip : validTable IP) (hfp : validTable FP) (RK : RoundKeys),
    (∀ B : Block, engineInv (engineFwd B IP FP RK) (invertTable IP hip) (invertTable FP hfp) RK = B) ∧
    (∀ B : Block, engineFwd (engineInv B (invertTable IP hip) (invertTable FP hfp) RK) IP FP RK = B) ∧
    Function.Bijective fun B : Block => engineFwd B IP FP RK

/-- R175: under `INVERSE`, `XFORM 0` followed by `XFORM 1` restores BLK, in every state of the invariant that is
configured. -/
def Obligations.InverseModeRoundTripOnTheBlock : Prop :=
  ∀ s : State, StateInv s → s.ready = true → s.params.decMode = .inverse →
    ∃ t u, exec (.xform 0) s = .next t ∧ exec (.xform 1) t = .next u ∧ u = { s with resp := some ⟨0, 0⟩ }

/-- Derived in R176 (b): when FP is the inverse table of IP, two forward passes restore every Block, for every key. -/
def Obligations.MutualInverseTablesUndoThemselves : Prop :=
  ∀ (IP : Table) (hip : validTable IP) (RK : RoundKeys) (B : Block),
    engineFwd (engineFwd B IP (invertTable IP hip) RK) IP (invertTable IP hip) RK = B

/-! ## The file codec (45_file_codec.md) -/

/-- R192, R200: `WRBUF` stores one byte of IBUF at `addr`, below `BUF_MAX`; at or above it nothing is written. -/
def Obligations.WrbufStoresOneByte : Prop :=
  (∀ (addr : BitVec 16) (d : BitVec 8),
    encode (.wrbuf addr d) = 0x50000000#32 + addr.setWidth 32 * 0x100 + d.setWidth 32) ∧
  ∀ (s : State) (addr : BitVec 16) (d : BitVec 8), ∃ t, exec (.wrbuf addr d) s = .next t ∧
    if s.params.bufMax ≤ addr.toNat then failsWith s t 5 2
    else byteAt t .ibuf addr.toNat = d ∧ (∀ a, a ≠ addr.toNat → byteAt t .ibuf a = byteAt s .ibuf a) ∧
      (∀ a, byteAt t .obuf a = byteAt s .obuf a) ∧ t = { s with ibuf := t.ibuf, resp := some ⟨0, 0⟩ }

/-- R193: `SETLEN` sets `LEN`, any length up to `BUF_MAX`, aligned or not. -/
def Obligations.SetlenSetsTheLength : Prop :=
  (∀ n : BitVec 16, encode (.setlen n) = 0x51000000#32 + n.setWidth 32 * 0x100) ∧
  ∀ (s : State) (n : BitVec 16), ∃ t, exec (.setlen n) s = .next t ∧
    if s.params.bufMax < n.toNat then failsWith s t 5 3
    else sameBytes s t ∧ t = { s with len := n, resp := some ⟨0, 0⟩ }

/-- R194, R196: `RUN` transforms every block of IBUF below `LEN`, writes all 8 bytes of each to the same place of OBUF,
and nowhere else, sets `OLEN` and answers with the number of bytes; it is refused while `READY` = 0, and then for a
length that is no multiple of 8. -/
def Obligations.RunTransformsEveryBlock : Prop :=
  (∀ dir : BitVec 1, encode (.run dir) = 0x52000000#32 + dir.setWidth 32) ∧
  (∀ (s : State) (dir : BitVec 1),
    (s.ready = false → ∃ t, exec (.run dir) s = .next t ∧ failsWith s t 3 0) ∧
    (s.ready = true → s.len.toNat % 8 ≠ 0 →
      ∃ t, exec (.run dir) s = .next t ∧ failsWith s t 2 (BitVec.ofNat 8 (s.len.toNat % 8)))) ∧
  ∀ (s : State) (dir : BitVec 1), s.ready = true → s.len.toNat % 8 = 0 →
    ∃ t, exec (.run dir) s = .next t ∧
      (∀ k < s.len.toNat / 8, ∀ j : Fin 8,
        byteAt t .obuf (8 * k + j.val) =
          (select s dir (Vector.ofFn fun j => byteAt s .ibuf (8 * k + j.val)))[j]) ∧
      (∀ a, s.len.toNat ≤ a → byteAt t .obuf a = byteAt s .obuf a) ∧
      (∀ a, byteAt t .ibuf a = byteAt s .ibuf a) ∧
      t = { s with obuf := t.obuf, olen := s.len, resp := some ⟨0, s.len.setWidth 32⟩ }

/-- R190, R194: what `RUN` leaves in OBUF is the codec of the input buffer. -/
def Obligations.RunIsTheFileCodec : Prop :=
  ∀ (s t : State) (dir : BitVec 1), s.ready = true → s.len.toNat % 8 = 0 → exec (.run dir) s = .next t →
    codec (select s dir) (memRead s .ibuf 0 s.len.toNat) = some (memRead t .obuf 0 s.len.toNat)

/-- R190, R191, R198: the codec has a value exactly for a length that is a multiple of 8; it keeps the length; each output
block is `f` of its own input block and of nothing else; on a concatenation of aligned buffers it is the concatenation. -/
def Obligations.CodecNeedsWholeBlocks : Prop :=
  ∀ (f : Block → Block) (buf : List Byte),
    ((codec f buf).isSome = true ↔ buf.length % 8 = 0) ∧
    (∀ out, codec f buf = some out → out.length = buf.length ∧
      ∀ k < buf.length / 8, ∀ B : Block, (∀ j : Fin 8, buf[8 * k + j.val]? = some B[j]) →
        ∀ j : Fin 8, out[8 * k + j.val]? = some (f B)[j]) ∧
    ∀ out buf' out', codec f buf = some out → codec f buf' = some out' → codec f (buf ++ buf') = some (out ++ out')

/-- R191, R194, R213, R218: a `RUN` on a length that is no multiple of 8 raises `BlockAlignmentError` with the remainder
and changes nothing but the latch. -/
def Obligations.RunRefusesAPartialBlock : Prop :=
  ∀ (s : State) (dir : BitVec 1), s.ready = true → s.len.toNat % 8 ≠ 0 →
    ∃ t, exec (.run dir) s = .next t ∧ failsWith s t 2 (BitVec.ofNat 8 (s.len.toNat % 8)) ∧ sameBytes s t

/-- R198: an output block of `RUN` depends only on the configuration and its own input block, wherever it stands. -/
def Obligations.OutputBlocksAreIndependent : Prop :=
  ∀ (s s' t t' : State) (dir : BitVec 1) (k k' : Nat),
    exec (.run dir) s = .next t → exec (.run dir) s' = .next t' →
    t.resp = some ⟨0, s.len.setWidth 32⟩ → t'.resp = some ⟨0, s'.len.setWidth 32⟩ →
    s.params = s'.params → s.ip = s'.ip → s.fp = s'.fp → s.ipi = s'.ipi → s.fpi = s'.fpi → s.rk = s'.rk →
    k < s.len.toNat / 8 → k' < s'.len.toNat / 8 →
    (∀ j < 8, byteAt s .ibuf (8 * k + j) = byteAt s' .ibuf (8 * k' + j)) →
    ∀ j < 8, byteAt t .obuf (8 * k + j) = byteAt t' .obuf (8 * k' + j)

/-- R175 with R190: under the inverse transform the codec undoes the codec of the forward transform, for every buffer of
whole blocks. -/
def Obligations.InverseCodecRestoresTheBuffer : Prop :=
  ∀ (s : State) (buf out : List Byte), constructed s → s.params.decMode = .inverse →
    codec (select s 0) buf = some out → codec (select s 1) out = some buf

/-- R195, R200: `RDOBUF` returns the byte of OBUF at `addr`, below `OLEN`; at or above it raises `RangeError` 2. -/
def Obligations.RdobufReadsValidOutput : Prop :=
  (∀ addr : BitVec 16, encode (.rdobuf addr) = 0x53000000#32 + addr.setWidth 32 * 0x100) ∧
  ∀ (s : State) (addr : BitVec 16), ∃ t, exec (.rdobuf addr) s = .next t ∧
    if s.olen.toNat ≤ addr.toNat then failsWith s t 5 2
    else t = { s with resp := some ⟨0, (byteAt s .obuf addr.toNat).setWidth 32⟩ }

/-! ## Errors (60_exceptions.md) -/

/-- R25, R211, R214: each of the eight commands that use the tables or the round keys raises `NotReadyError` while
`READY` = 0 and changes nothing but the latch. -/
def Obligations.ProcessingNeedsTheConstruction : Prop :=
  ∀ (i : Instr) (s : State), needsReady i = true → s.ready = false →
    ∃ t, exec i s = .next t ∧ failsWith s t 3 0 ∧ sameBytes s t

/-- R216, R220: a command that fails leaves the state before it plus the latch; the latch keeps the first error, and the
response carries the error of the command that just failed. -/
def Obligations.FailuresArePreciseAndLatchedOnce : Prop :=
  ∀ (i : Instr) (s t : State) (r : Response), exec i s = .next t → t.resp = some r → r.code ≠ 0 →
    failsWith s t r.code (r.data.setWidth 8)

/-- R220, R26: a command that succeeds never changes the latch, except `CLRERR` and `SRST`, which clear it. -/
def Obligations.SuccessKeepsTheLatch : Prop :=
  ∀ (i : Instr) (s t : State) (d : Word), exec i s = .next t → t.resp = some ⟨0, d⟩ →
    if i = .clrerr ∨ i = .srst then t.err = 0 ∧ t.errInfo = 0 else t.err = s.err ∧ t.errInfo = s.errInfo

/-- R211: the error codes and sub-causes each command can answer with, and no others. -/
def Obligations.OnlyTheListedErrorsAreRaised : Prop :=
  ∀ (i : Instr) (s t : State) (r : Response), exec i s = .next t → t.resp = some r → r.code ≠ 0 →
    (r.code, r.data) ∈ possibleErrors i

/-- R26, R221: no command's effect depends on the latch: run with the latch changed, it answers the same (but for `RDCR`
of `STATUS` and `ERR`) and leaves the same state but for the latch. -/
def Obligations.LatchedErrorsBlockNothing : Prop :=
  ∀ (i : Instr) (s t : State) (c e : Byte), exec i s = .next t → i ≠ .rdcr 1 → i ≠ .rdcr 2 →
    ∃ t', exec i { s with err := c, errInfo := e } = .next t' ∧ t' = { t with err := t'.err, errInfo := t'.errInfo }

/-! ## The whole machine -/

/-- R20, the column "written by": which commands can change which part of the state. The last three clauses, that no command
changes the parameters, the port or the count of resets, are the model's: these fields of `State` are no state of the spec
(log entries 1, 2 and 6). -/
def Obligations.StateIsWrittenOnlyByTheListedCommands : Prop :=
  ∀ (i : Instr) (s t : State), exec i s = .next t →
    (t.key = s.key ∨ i = .keyclr ∨ (∃ d, i = .keypush d) ∨ i = .srst) ∧
    (t.ip = s.ip ∨ (∃ idx val, i = .ldip idx val) ∨ i = .srst) ∧
    (t.fp = s.fp ∨ (∃ idx val, i = .ldfp idx val) ∨ i = .srst) ∧
    ((t.rk = s.rk ∧ t.ipi = s.ipi ∧ t.fpi = s.fpi) ∨ i = .init) ∧
    (t.blk = s.blk ∨ (∃ idx d, i = .ldblk idx d) ∨ i = .permip ∨ i = .permfp ∨ i = .permipi ∨ i = .permfpi ∨
      (∃ rnd, i = .round rnd) ∨ (∃ dir, i = .xform dir) ∨ i = .srst) ∧
    (t.ibuf = s.ibuf ∨ ∃ addr d, i = .wrbuf addr d) ∧
    (t.len = s.len ∨ (∃ n, i = .setlen n) ∨ i = .srst) ∧
    (t.obuf = s.obuf ∨ ∃ dir, i = .run dir) ∧
    (t.olen = s.olen ∨ (∃ dir, i = .run dir) ∨ i = .srst) ∧
    t.params = s.params ∧ t.port = s.port ∧ t.resets = s.resets

/-- R46, R241: the registers after reset, for every choice of the parameters: `INIT` then fails with sub-cause 1 and every
processing command is refused. `RK`, `IPI`, `FPI` and the buffers are left out: the spec gives them no reset value. -/
def Obligations.ResetLeavesTheEngineUnconfigured : Prop :=
  State.reset = State.resetWith { keyMax := 256, bufMax := 4096, decMode := .forward } ∧
  ∀ p : Params,
    (State.resetWith p).klen = 0 ∧ (State.resetWith p).ready = false ∧ (State.resetWith p).len = 0 ∧
    (State.resetWith p).olen = 0 ∧ (State.resetWith p).err = 0 ∧ (State.resetWith p).errInfo = 0 ∧
    (∀ i : Fin 8, (State.resetWith p).ip[i] = 0 ∧ (State.resetWith p).fp[i] = 0 ∧ (State.resetWith p).blk[i] = 0) ∧
    (∃ t, exec .init (State.resetWith p) = .next t ∧ t.resp = some ⟨1, 1⟩ ∧ t.ready = false) ∧
    ∀ i : Instr, needsReady i = true → ∃ t, exec i (State.resetWith p) = .next t ∧ t.resp = some ⟨3, 0⟩

/-- R240 with the model's form of it (log entries 2, 3, 6 and 7): a hardware reset between two commands, in any state,
leaves the registers of R46, keeps the parameters and the rest of the port, and lists no byte of either buffer. That no
response is held afterwards is the model's choice alone (log entry 3). -/
def Obligations.HardwareResetReturnsTheResetRegisters : Prop :=
  ∀ (s : State) (rest : List PortEvent), s.port = .hardwareReset :: rest →
    ∃ t, step s = .next t ∧
      t = { State.resetWith s.params with
        port := rest, resets := s.resets + 1, rk := t.rk, ipi := t.ipi, fpi := t.fpi }

/-- The invariant, R43 and the model's own clauses (log entries 1 and 6), holds right after reset, for all parameters
within their bounds. -/
def Obligations.ResetMeetsTheInvariant : Prop :=
  ∀ p : Params, p.wf → StateInv (State.resetWith p)

/-- R43, which the spec marks as derived, and the model's own clauses (log entries 1 and 6): every step from a
state of the invariant, reached or not, ends in one. -/
def Obligations.EveryStepKeepsTheInvariant : Prop :=
  ∀ s t : State, StateInv s → step s = .next t → StateInv t

/-- R43: in every state reachable from reset, whatever the host presents, the construction is that of the configuration
while `READY` = 1, the lengths are within their bounds and the latch is consistent. The list of events on the
port is the model's (log entry 2). -/
def Obligations.ReachableStatesAreConsistent : Prop :=
  ∀ (p : Params) (events : List PortEvent) (n : Nat), p.wf →
    ∃ t, runSteps n { State.resetWith p with port := events } = .next t ∧ SpecInv t

/-- U11, R27, R28, R30: what the spec calls unobservable is: two states that agree on everything else give the same
response to the next event and agree on everything else after it. That they agree on IBUF after a hardware reset is the
model's choice (log entry 6): the free bytes depend on the count of resets, on which the two states agree, while R46 and U1
leave each of them any value. -/
def Obligations.HiddenStateIsUnobservable : Prop :=
  ∀ s t : State, ObsEq s t → ∃ s' t', step s = .next s' ∧ step t = .next t' ∧ ObsEq s' t'
end

