-- ==== Sys2Proof/Laws/Cipher.lean ====
section
/-!
SUPPORT. What each pure function of the cipher gives at an offset, and the linearity facts the closed forms rest on.
-/

namespace Sys2Proof.Machine

@[simp] theorem getElem_xorBlock (A B : Block) (j : Nat) (h : j < 8) : (xorBlock A B)[j] = A[j] ^^^ B[j] := by
  simp [xorBlock]

theorem roundBlock_eq (B K : Block) : roundBlock B K = xorBlock B K := rfl

theorem xorBlock_comm (A B : Block) : xorBlock A B = xorBlock B A := by
  ext j hj : 1
  simp [BitVec.xor_comm]

theorem xorBlock_assoc (A B C : Block) : xorBlock (xorBlock A B) C = xorBlock A (xorBlock B C) := by
  ext j hj : 1
  simp [BitVec.xor_assoc]

@[simp] theorem xorBlock_zero (A : Block) : xorBlock A (Vector.replicate 8 0) = A := by
  ext j hj : 1
  simp

@[simp] theorem xorBlock_self_right (A B : Block) : xorBlock (xorBlock A B) B = A := by
  ext j hj : 1
  simp

/-- Rounds merge: a sequence of rounds is one exclusive-or with the exclusive-or of their keys. -/
theorem foldl_roundBlock (Ks : List Block) (B : Block) :
    Ks.foldl roundBlock B = xorBlock B (Ks.foldl xorBlock (Vector.replicate 8 0)) := by
  induction Ks generalizing B with
  | nil => exact (xorBlock_zero B).symm
  | cons K Ks ih =>
    have h0 : xorBlock (Vector.replicate 8 0) K = K := by rw [xorBlock_comm, xorBlock_zero]
    have hK := ih K
    rw [List.foldl_cons, List.foldl_cons, ih, h0, roundBlock_eq, xorBlock_assoc]
    exact congrArg (xorBlock B) hK.symm

theorem getElem_schedule (K : List Byte) (h : 0 < K.length) (i j : Nat) (hi : i < 16) (hj : j < 8) :
    ((schedule K h)[i])[j] = K[(i + j) % K.length]'(Nat.mod_lt _ h) := by simp [schedule]

/-- `permute` at an offset whose entry names a position. -/
theorem getElem_permute (T : Table) (B : Block) (i : Nat) (hi : i < 8) (h : namesPosition T[i]) :
    (permute T B)[i] = B[T[i].toNat - 1]'(by unfold namesPosition at h; omega) := by
  simp only [permute, Vector.getElem_ofFn]
  exact dif_pos h

/-- The entries of a valid table are distinct. -/
theorem validTable_inj {T : Table} (h : validTable T) {i k : Fin 8} (e : T[i].toNat = T[k].toNat) : i = k := by
  by_contra hik
  exact h.2 i k hik (BitVec.eq_of_toNat_eq e)

/-- The offset a valid table's entry names. -/
def sourceOffset (T : Table) (h : validTable T) (i : Fin 8) : Fin 8 :=
  ⟨T[i].toNat - 1, by
    have hi : 1 ≤ T[i].toNat ∧ T[i].toNat ≤ 8 := h.1 i
    show T[i].toNat - 1 < 8
    omega⟩

theorem sourceOffset_injective (T : Table) (h : validTable T) : Function.Injective (sourceOffset T h) := by
  intro i k e
  have hi : 1 ≤ T[i].toNat ∧ T[i].toNat ≤ 8 := h.1 i
  have hk : 1 ≤ T[k].toNat ∧ T[k].toNat ≤ 8 := h.1 k
  have e1 : T[i].toNat - 1 = T[k].toNat - 1 := congrArg Fin.val e
  have e2 : T[i].toNat = T[k].toNat := by omega
  exact validTable_inj h e2

/-- A valid table names every offset. -/
theorem sourceOffset_surjective (T : Table) (h : validTable T) : Function.Surjective (sourceOffset T h) :=
  Finite.surjective_of_injective (sourceOffset_injective T h)

/-- The inverse table's entry for the position that entry `i` names is `i + 1`. -/
theorem getElem_invertTable (T : Table) (h : validTable T) (i : Fin 8) :
    (invertTable T h)[(sourceOffset T h i).val] = BitVec.ofNat 4 (i.val + 1) := by
  have hi : 1 ≤ T[i].toNat ∧ T[i].toNat ≤ 8 := h.1 i
  have hpos : (sourceOffset T h i).val + 1 = T[i].toNat := by
    show T[i].toNat - 1 + 1 = T[i].toNat
    omega
  simp only [invertTable, Vector.getElem_ofFn, hpos]
  cases hf : (List.finRange 8).find? fun k => T[k].toNat == T[i].toNat with
  | none => exact absurd (beq_self_eq_true T[i].toNat) (List.find?_eq_none.mp hf i (List.mem_finRange i))
  | some k =>
    have hk : (T[k].toNat == T[i].toNat) = true :=
      List.find?_some (p := fun k : Fin 8 => T[k].toNat == T[i].toNat) hf
    rw [validTable_inj h (beq_iff_eq.mp hk)]

/-- `permute` through a valid table takes each byte from the offset its entry names. -/
theorem getElem_permute_valid (T : Table) (h : validTable T) (B : Block) (i : Fin 8) :
    (permute T B)[i] = B[sourceOffset T h i] := getElem_permute T B i i.isLt (h.1 i)

/-- The inverse of a valid table is valid. -/
theorem validTable_invertTable (T : Table) (h : validTable T) : validTable (invertTable T h) := by
  have entry : ∀ i : Fin 8, namesPosition (BitVec.ofNat 4 (i.val + 1)) := by decide
  have inj : ∀ i k : Fin 8, BitVec.ofNat 4 (i.val + 1) = BitVec.ofNat 4 (k.val + 1) → i = k := by decide
  refine ⟨fun p => ?_, fun p q hpq he => hpq ?_⟩
  · obtain ⟨i, rfl⟩ := sourceOffset_surjective T h p
    have e : (invertTable T h)[sourceOffset T h i] = _ := getElem_invertTable T h i
    rw [e]
    exact entry i
  · obtain ⟨i, rfl⟩ := sourceOffset_surjective T h p
    obtain ⟨k, rfl⟩ := sourceOffset_surjective T h q
    have ei : (invertTable T h)[sourceOffset T h i] = _ := getElem_invertTable T h i
    have ek : (invertTable T h)[sourceOffset T h k] = _ := getElem_invertTable T h k
    rw [ei, ek] at he
    rw [inj i k he]

/-- The inverse table sends the offset an entry names back to the entry's own. -/
theorem sourceOffset_invertTable (T : Table) (h : validTable T) (i : Fin 8) :
    sourceOffset (invertTable T h) (validTable_invertTable T h) (sourceOffset T h i) = i := by
  have back : ∀ i : Fin 8, (BitVec.ofNat 4 (i.val + 1)).toNat - 1 = i.val := by decide
  apply Fin.ext
  have e : (invertTable T h)[sourceOffset T h i] = _ := getElem_invertTable T h i
  show ((invertTable T h)[sourceOffset T h i]).toNat - 1 = i.val
  rw [e]
  exact back i

end Sys2Proof.Machine
end

