-- ==== Sys2Proof/Laws/Decode.lean ====
section
/-!
SUPPORT. The bits of an encoded word, and decoding by the row of its opcode (30_encoding.md R83, R90).
-/

namespace Sys2Proof

/-- The bits of a word that holds an opcode and nothing else. -/
theorem getElem_opWord (op : BitVec 8) (i : Nat) (h : i < 32) :
    (opWord op)[i] = (decide (24 ≤ i) && op.getLsbD (i - 24)) := by
  unfold opWord
  by_cases h1 : 24 ≤ i
  · have h2 : ¬ i < 24 := by omega
    simp [BitVec.getElem_shiftLeft, h1, h2]
  · have h2 : i < 24 := by omega
    simp [BitVec.getElem_shiftLeft, h1, h2]

/-- The bits of a field moved to its position. -/
theorem getElem_fieldAt {n : Nat} (v : BitVec n) (lo i : Nat) (h : i < 32) :
    (fieldAt v lo)[i] = (decide (lo ≤ i) && v.getLsbD (i - lo)) := by
  unfold fieldAt
  by_cases h1 : lo ≤ i
  · have h2 : ¬ i < lo := by omega
    simp [BitVec.getElem_shiftLeft, h1, h2]
  · have h2 : i < lo := by omega
    simp [BitVec.getElem_shiftLeft, h1, h2]

/-- A word whose opcode has a row and whose fixed bits are the row's decodes to the row's command. -/
theorem decode_of_row {w : Word} {op : BitVec 8} {r : OpcodeRow} (hop : opField w = op)
    (hrow : opcodeRows.find? (fun r => r.op == op) = some r) (hfix : w &&& r.mask = r.pattern) :
    decode w = .command (r.build w) := by
  unfold decode
  rw [hop, hrow]
  exact if_pos hfix

/-- A word whose opcode has no row decodes to nothing. -/
theorem decode_of_no_row {w : Word} {op : BitVec 8} (hop : opField w = op)
    (hrow : opcodeRows.find? (fun r => r.op == op) = none) : decode w = .illegal .undefinedOpcode := by
  unfold decode
  rw [hop, hrow]

end Sys2Proof
end

