-- ==== Sys2Proof/Laws/State.lean ====
section
/-!
SUPPORT. One lemma per field of the state for each update of the model, and the two port lemmas of `withFetchWord`.
-/

namespace Sys2Proof.Machine

/-! ## `clearLatch` -/

@[simp] theorem clearLatch_key (s : State) : (clearLatch s).key = s.key := rfl
@[simp] theorem clearLatch_ip (s : State) : (clearLatch s).ip = s.ip := rfl
@[simp] theorem clearLatch_fp (s : State) : (clearLatch s).fp = s.fp := rfl
@[simp] theorem clearLatch_ready (s : State) : (clearLatch s).ready = s.ready := rfl
@[simp] theorem clearLatch_rk (s : State) : (clearLatch s).rk = s.rk := rfl
@[simp] theorem clearLatch_ipi (s : State) : (clearLatch s).ipi = s.ipi := rfl
@[simp] theorem clearLatch_fpi (s : State) : (clearLatch s).fpi = s.fpi := rfl
@[simp] theorem clearLatch_blk (s : State) : (clearLatch s).blk = s.blk := rfl
@[simp] theorem clearLatch_ibuf (s : State) : (clearLatch s).ibuf = s.ibuf := rfl
@[simp] theorem clearLatch_len (s : State) : (clearLatch s).len = s.len := rfl
@[simp] theorem clearLatch_obuf (s : State) : (clearLatch s).obuf = s.obuf := rfl
@[simp] theorem clearLatch_olen (s : State) : (clearLatch s).olen = s.olen := rfl
@[simp] theorem clearLatch_err (s : State) : (clearLatch s).err = 0 := rfl
@[simp] theorem clearLatch_errInfo (s : State) : (clearLatch s).errInfo = 0 := rfl
@[simp] theorem clearLatch_params (s : State) : (clearLatch s).params = s.params := rfl
@[simp] theorem clearLatch_port (s : State) : (clearLatch s).port = s.port := rfl
@[simp] theorem clearLatch_resp (s : State) : (clearLatch s).resp = s.resp := rfl
@[simp] theorem clearLatch_resets (s : State) : (clearLatch s).resets = s.resets := rfl

/-! ## `endInvocation` -/

@[simp] theorem endInvocation_key (s : State) : (endInvocation s).key = s.key := rfl
@[simp] theorem endInvocation_ip (s : State) : (endInvocation s).ip = s.ip := rfl
@[simp] theorem endInvocation_fp (s : State) : (endInvocation s).fp = s.fp := rfl
@[simp] theorem endInvocation_ready (s : State) : (endInvocation s).ready = false := rfl
@[simp] theorem endInvocation_rk (s : State) : (endInvocation s).rk = s.rk := rfl
@[simp] theorem endInvocation_ipi (s : State) : (endInvocation s).ipi = s.ipi := rfl
@[simp] theorem endInvocation_fpi (s : State) : (endInvocation s).fpi = s.fpi := rfl
@[simp] theorem endInvocation_blk (s : State) : (endInvocation s).blk = s.blk := rfl
@[simp] theorem endInvocation_ibuf (s : State) : (endInvocation s).ibuf = s.ibuf := rfl
@[simp] theorem endInvocation_len (s : State) : (endInvocation s).len = s.len := rfl
@[simp] theorem endInvocation_obuf (s : State) : (endInvocation s).obuf = s.obuf := rfl
@[simp] theorem endInvocation_olen (s : State) : (endInvocation s).olen = s.olen := rfl
@[simp] theorem endInvocation_err (s : State) : (endInvocation s).err = s.err := rfl
@[simp] theorem endInvocation_errInfo (s : State) : (endInvocation s).errInfo = s.errInfo := rfl
@[simp] theorem endInvocation_params (s : State) : (endInvocation s).params = s.params := rfl
@[simp] theorem endInvocation_port (s : State) : (endInvocation s).port = s.port := rfl
@[simp] theorem endInvocation_resp (s : State) : (endInvocation s).resp = s.resp := rfl
@[simp] theorem endInvocation_resets (s : State) : (endInvocation s).resets = s.resets := rfl

/-! ## `clearRegisters` -/

@[simp] theorem clearRegisters_key (s : State) : (clearRegisters s).key = [] := rfl
@[simp] theorem clearRegisters_ip (s : State) : (clearRegisters s).ip = Vector.replicate 8 0 := rfl
@[simp] theorem clearRegisters_fp (s : State) : (clearRegisters s).fp = Vector.replicate 8 0 := rfl
@[simp] theorem clearRegisters_ready (s : State) : (clearRegisters s).ready = false := rfl
@[simp] theorem clearRegisters_rk (s : State) : (clearRegisters s).rk = s.rk := rfl
@[simp] theorem clearRegisters_ipi (s : State) : (clearRegisters s).ipi = s.ipi := rfl
@[simp] theorem clearRegisters_fpi (s : State) : (clearRegisters s).fpi = s.fpi := rfl
@[simp] theorem clearRegisters_blk (s : State) : (clearRegisters s).blk = Vector.replicate 8 0 := rfl
@[simp] theorem clearRegisters_ibuf (s : State) : (clearRegisters s).ibuf = s.ibuf := rfl
@[simp] theorem clearRegisters_len (s : State) : (clearRegisters s).len = 0 := rfl
@[simp] theorem clearRegisters_obuf (s : State) : (clearRegisters s).obuf = s.obuf := rfl
@[simp] theorem clearRegisters_olen (s : State) : (clearRegisters s).olen = 0 := rfl
@[simp] theorem clearRegisters_err (s : State) : (clearRegisters s).err = 0 := rfl
@[simp] theorem clearRegisters_errInfo (s : State) : (clearRegisters s).errInfo = 0 := rfl
@[simp] theorem clearRegisters_params (s : State) : (clearRegisters s).params = s.params := rfl
@[simp] theorem clearRegisters_port (s : State) : (clearRegisters s).port = s.port := rfl
@[simp] theorem clearRegisters_resp (s : State) : (clearRegisters s).resp = s.resp := rfl
@[simp] theorem clearRegisters_resets (s : State) : (clearRegisters s).resets = s.resets := rfl

/-! ## `hardwareReset` -/

@[simp] theorem hardwareReset_key (s : State) : (hardwareReset s).key = [] := rfl
@[simp] theorem hardwareReset_ip (s : State) : (hardwareReset s).ip = Vector.replicate 8 0 := rfl
@[simp] theorem hardwareReset_fp (s : State) : (hardwareReset s).fp = Vector.replicate 8 0 := rfl
@[simp] theorem hardwareReset_ready (s : State) : (hardwareReset s).ready = false := rfl
@[simp] theorem hardwareReset_rk (s : State) : (hardwareReset s).rk = s.rk := rfl
@[simp] theorem hardwareReset_ipi (s : State) : (hardwareReset s).ipi = s.ipi := rfl
@[simp] theorem hardwareReset_fpi (s : State) : (hardwareReset s).fpi = s.fpi := rfl
@[simp] theorem hardwareReset_blk (s : State) : (hardwareReset s).blk = Vector.replicate 8 0 := rfl
@[simp] theorem hardwareReset_ibuf (s : State) : (hardwareReset s).ibuf = [] := rfl
@[simp] theorem hardwareReset_len (s : State) : (hardwareReset s).len = 0 := rfl
@[simp] theorem hardwareReset_obuf (s : State) : (hardwareReset s).obuf = [] := rfl
@[simp] theorem hardwareReset_olen (s : State) : (hardwareReset s).olen = 0 := rfl
@[simp] theorem hardwareReset_err (s : State) : (hardwareReset s).err = 0 := rfl
@[simp] theorem hardwareReset_errInfo (s : State) : (hardwareReset s).errInfo = 0 := rfl
@[simp] theorem hardwareReset_params (s : State) : (hardwareReset s).params = s.params := rfl
@[simp] theorem hardwareReset_port (s : State) : (hardwareReset s).port = s.port := rfl
@[simp] theorem hardwareReset_resp (s : State) : (hardwareReset s).resp = none := rfl
@[simp] theorem hardwareReset_resets (s : State) : (hardwareReset s).resets = s.resets + 1 := rfl

/-! ## `takeEvent` -/

@[simp] theorem takeEvent_key (s : State) : (takeEvent s).key = s.key := rfl
@[simp] theorem takeEvent_ip (s : State) : (takeEvent s).ip = s.ip := rfl
@[simp] theorem takeEvent_fp (s : State) : (takeEvent s).fp = s.fp := rfl
@[simp] theorem takeEvent_ready (s : State) : (takeEvent s).ready = s.ready := rfl
@[simp] theorem takeEvent_rk (s : State) : (takeEvent s).rk = s.rk := rfl
@[simp] theorem takeEvent_ipi (s : State) : (takeEvent s).ipi = s.ipi := rfl
@[simp] theorem takeEvent_fpi (s : State) : (takeEvent s).fpi = s.fpi := rfl
@[simp] theorem takeEvent_blk (s : State) : (takeEvent s).blk = s.blk := rfl
@[simp] theorem takeEvent_ibuf (s : State) : (takeEvent s).ibuf = s.ibuf := rfl
@[simp] theorem takeEvent_len (s : State) : (takeEvent s).len = s.len := rfl
@[simp] theorem takeEvent_obuf (s : State) : (takeEvent s).obuf = s.obuf := rfl
@[simp] theorem takeEvent_olen (s : State) : (takeEvent s).olen = s.olen := rfl
@[simp] theorem takeEvent_err (s : State) : (takeEvent s).err = s.err := rfl
@[simp] theorem takeEvent_errInfo (s : State) : (takeEvent s).errInfo = s.errInfo := rfl
@[simp] theorem takeEvent_params (s : State) : (takeEvent s).params = s.params := rfl
@[simp] theorem takeEvent_port (s : State) : (takeEvent s).port = s.port.tail := rfl
@[simp] theorem takeEvent_resp (s : State) : (takeEvent s).resp = s.resp := rfl
@[simp] theorem takeEvent_resets (s : State) : (takeEvent s).resets = s.resets := rfl

/-! ## `presentWord` -/

@[simp] theorem presentWord_key (s : State) (cw : Word) : (presentWord s cw).key = s.key := rfl
@[simp] theorem presentWord_ip (s : State) (cw : Word) : (presentWord s cw).ip = s.ip := rfl
@[simp] theorem presentWord_fp (s : State) (cw : Word) : (presentWord s cw).fp = s.fp := rfl
@[simp] theorem presentWord_ready (s : State) (cw : Word) : (presentWord s cw).ready = s.ready := rfl
@[simp] theorem presentWord_rk (s : State) (cw : Word) : (presentWord s cw).rk = s.rk := rfl
@[simp] theorem presentWord_ipi (s : State) (cw : Word) : (presentWord s cw).ipi = s.ipi := rfl
@[simp] theorem presentWord_fpi (s : State) (cw : Word) : (presentWord s cw).fpi = s.fpi := rfl
@[simp] theorem presentWord_blk (s : State) (cw : Word) : (presentWord s cw).blk = s.blk := rfl
@[simp] theorem presentWord_ibuf (s : State) (cw : Word) : (presentWord s cw).ibuf = s.ibuf := rfl
@[simp] theorem presentWord_len (s : State) (cw : Word) : (presentWord s cw).len = s.len := rfl
@[simp] theorem presentWord_obuf (s : State) (cw : Word) : (presentWord s cw).obuf = s.obuf := rfl
@[simp] theorem presentWord_olen (s : State) (cw : Word) : (presentWord s cw).olen = s.olen := rfl
@[simp] theorem presentWord_err (s : State) (cw : Word) : (presentWord s cw).err = s.err := rfl
@[simp] theorem presentWord_errInfo (s : State) (cw : Word) : (presentWord s cw).errInfo = s.errInfo := rfl
@[simp] theorem presentWord_params (s : State) (cw : Word) : (presentWord s cw).params = s.params := rfl
@[simp] theorem presentWord_port (s : State) (cw : Word) : (presentWord s cw).port = .command cw :: s.port := rfl
@[simp] theorem presentWord_resp (s : State) (cw : Word) : (presentWord s cw).resp = s.resp := rfl
@[simp] theorem presentWord_resets (s : State) (cw : Word) : (presentWord s cw).resets = s.resets := rfl

/-! ## `latchError`: the latch itself, and every other field -/

theorem latchError_of_err (e : CommandError) (s : State) (h : s.err ≠ 0) : latchError e s = s := if_neg h

theorem latchError_of_no_err (e : CommandError) (s : State) (h : s.err = 0) :
    latchError e s = { s with err := errorCode e, errInfo := errorInfo e } := if_pos h

theorem latchError_eq (e : CommandError) (s : State) :
    latchError e s = { s with
      err := if s.err = 0 then errorCode e else s.err
      errInfo := if s.err = 0 then errorInfo e else s.errInfo } := by
  unfold latchError
  split <;> rfl

@[simp] theorem latchError_err (e : CommandError) (s : State) :
    (latchError e s).err = if s.err = 0 then errorCode e else s.err := by rw [latchError_eq]
@[simp] theorem latchError_errInfo (e : CommandError) (s : State) :
    (latchError e s).errInfo = if s.err = 0 then errorInfo e else s.errInfo := by rw [latchError_eq]
@[simp] theorem latchError_key (e : CommandError) (s : State) : (latchError e s).key = s.key := by rw [latchError_eq]
@[simp] theorem latchError_ip (e : CommandError) (s : State) : (latchError e s).ip = s.ip := by rw [latchError_eq]
@[simp] theorem latchError_fp (e : CommandError) (s : State) : (latchError e s).fp = s.fp := by rw [latchError_eq]
@[simp] theorem latchError_ready (e : CommandError) (s : State) : (latchError e s).ready = s.ready := by rw [latchError_eq]
@[simp] theorem latchError_rk (e : CommandError) (s : State) : (latchError e s).rk = s.rk := by rw [latchError_eq]
@[simp] theorem latchError_ipi (e : CommandError) (s : State) : (latchError e s).ipi = s.ipi := by rw [latchError_eq]
@[simp] theorem latchError_fpi (e : CommandError) (s : State) : (latchError e s).fpi = s.fpi := by rw [latchError_eq]
@[simp] theorem latchError_blk (e : CommandError) (s : State) : (latchError e s).blk = s.blk := by rw [latchError_eq]
@[simp] theorem latchError_ibuf (e : CommandError) (s : State) : (latchError e s).ibuf = s.ibuf := by rw [latchError_eq]
@[simp] theorem latchError_len (e : CommandError) (s : State) : (latchError e s).len = s.len := by rw [latchError_eq]
@[simp] theorem latchError_obuf (e : CommandError) (s : State) : (latchError e s).obuf = s.obuf := by rw [latchError_eq]
@[simp] theorem latchError_olen (e : CommandError) (s : State) : (latchError e s).olen = s.olen := by rw [latchError_eq]
@[simp] theorem latchError_params (e : CommandError) (s : State) : (latchError e s).params = s.params := by rw [latchError_eq]
@[simp] theorem latchError_port (e : CommandError) (s : State) : (latchError e s).port = s.port := by rw [latchError_eq]
@[simp] theorem latchError_resp (e : CommandError) (s : State) : (latchError e s).resp = s.resp := by rw [latchError_eq]
@[simp] theorem latchError_resets (e : CommandError) (s : State) : (latchError e s).resets = s.resets := by rw [latchError_eq]

/-! ## What is read through several fields -/

@[simp] theorem klen_eq (s : State) : s.klen = s.key.length := rfl

@[simp] theorem memory_ibuf (s : State) : s.memory .ibuf = s.ibuf := rfl
@[simp] theorem memory_obuf (s : State) : s.memory .obuf = s.obuf := rfl

/-- A byte reads from its space's memory and, where nothing was written, from what the last reset left. -/
theorem byteAt_congr {s t : State} (sp : Space) (a : Nat) (hm : s.memory sp = t.memory sp) (hr : s.resets = t.resets) :
    byteAt s sp a = byteAt t sp a := by
  unfold byteAt
  rw [hm, hr]

end Sys2Proof.Machine
end

