-- ==== Sys2Proof/Laws/Memory.lean ====
section
/-!
SUPPORT. The laws of the buffer memory: read after write, the canonical form kept by every operation, and what a block
write and a whole `RUN` leave at every address.
-/

namespace Sys2Proof.Machine

/-! ## One byte -/

@[simp] theorem Memory.lookup_nil (a : Nat) : Memory.lookup [] a = none := rfl

@[simp] theorem Memory.lookup_write_self (m : Memory) (a : Nat) (d : Byte) : (m.write a d).lookup a = some d := by
  induction m with
  | nil => simp [Memory.write, Memory.lookup]
  | cons c rest ih =>
    obtain ⟨k, b⟩ := c
    by_cases h1 : a < k
    · simp [Memory.write, Memory.lookup, h1]
    · by_cases h2 : a = k
      · simp [Memory.write, Memory.lookup, h2]
      · simp [Memory.write, Memory.lookup, h1, h2, Ne.symm h2, ih]

@[simp] theorem Memory.lookup_write_of_ne (m : Memory) {a x : Nat} (d : Byte) (h : x ≠ a) :
    (m.write a d).lookup x = m.lookup x := by
  induction m with
  | nil => simp [Memory.write, Memory.lookup, Ne.symm h]
  | cons c rest ih =>
    obtain ⟨k, b⟩ := c
    by_cases h1 : a < k
    · simp [Memory.write, Memory.lookup, h1, Ne.symm h]
    · by_cases h2 : a = k
      · subst h2
        simp [Memory.write, Memory.lookup, Ne.symm h]
      · simp [Memory.write, Memory.lookup, h1, h2, ih]

/-- The addresses a write can list: those listed before and its own. -/
theorem Memory.mem_write {m : Memory} {a : Nat} {d : Byte} {c : Host.Cell} (h : c ∈ m.write a d) :
    c.1 = a ∨ c ∈ m := by
  induction m with
  | nil => simp [Memory.write] at h; simp [h]
  | cons e rest ih =>
    obtain ⟨k, b⟩ := e
    by_cases h1 : a < k
    · simp [Memory.write, h1] at h
      rcases h with rfl | h | h <;> simp_all
    · by_cases h2 : a = k
      · simp [Memory.write, h2] at h
        rcases h with rfl | h <;> simp_all
      · simp [Memory.write, h1, h2] at h
        rcases h with h | h
        · simp [h]
        · rcases ih h with h | h <;> simp [h]

/-- A write keeps the canonical form. -/
theorem Memory.wf_write {m : Memory} (hm : m.wf) (a : Nat) (d : Byte) : (m.write a d).wf := by
  induction m with
  | nil => simp [Memory.write]
  | cons e rest ih =>
    obtain ⟨k, b⟩ := e
    obtain ⟨hk, hrest⟩ := List.pairwise_cons.mp hm
    by_cases h1 : a < k
    · simp only [Memory.write, h1, if_true]
      refine List.pairwise_cons.mpr ⟨fun c hc => ?_, hm⟩
      rcases List.mem_cons.mp hc with rfl | hc
      · exact h1
      · exact h1.trans (hk c hc)
    · by_cases h2 : a = k
      · subst h2
        simp only [Memory.write, Nat.lt_irrefl, if_false, if_true]
        exact List.pairwise_cons.mpr ⟨hk, hrest⟩
      · simp only [Memory.write, h1, h2, if_false]
        refine List.pairwise_cons.mpr ⟨fun c hc => ?_, ih hrest⟩
        rcases Memory.mem_write hc with h | h
        · show k < c.1
          omega
        · exact hk c h

/-! ## Several bytes -/

/-- `MemWrite` leaves the bytes of the list at consecutive addresses and every other address as it was. -/
theorem lookup_memWrite (m : Memory) (a : Nat) (bs : List Byte) (x : Nat) :
    (memWrite m a bs).lookup x = if h : a ≤ x ∧ x < a + bs.length then some bs[x - a] else m.lookup x := by
  induction bs generalizing m a with
  | nil => simp [memWrite]
  | cons b bs ih =>
    rw [memWrite, ih]
    by_cases hx : x = a
    · subst hx
      simp
    · rw [Memory.lookup_write_of_ne _ _ hx]
      by_cases h : a + 1 ≤ x ∧ x < a + 1 + bs.length
      · have h' : a ≤ x ∧ x < a + (b :: bs).length := by simp; omega
        have e : x - a = (x - (a + 1)) + 1 := by omega
        simp only [h, h', and_self, dif_pos, e, List.getElem_cons_succ]
      · have h' : ¬ (a ≤ x ∧ x < a + (b :: bs).length) := by simp; omega
        simp only [h, h', dif_neg, not_false_eq_true]

theorem wf_memWrite {m : Memory} (hm : m.wf) (a : Nat) (bs : List Byte) : (memWrite m a bs).wf := by
  induction bs generalizing m a with
  | nil => exact hm
  | cons b bs ih => exact ih (Memory.wf_write hm a b) (a + 1)

theorem mem_memWrite {m : Memory} {a : Nat} {bs : List Byte} {c : Host.Cell} (h : c ∈ memWrite m a bs) :
    (a ≤ c.1 ∧ c.1 < a + bs.length) ∨ c ∈ m := by
  induction bs generalizing m a with
  | nil => exact .inr h
  | cons b bs ih =>
    rcases ih h with h | h
    · left; simp; omega
    · rcases Memory.mem_write h with h | h
      · left; simp; omega
      · exact .inr h

/-! ## One block -/

theorem lookup_writeBlock (m : Memory) (k : Nat) (W : Block) (x : Nat) :
    (writeBlock m k W).lookup x =
      if h : 8 * k ≤ x ∧ x < 8 * k + 8 then some (W[x - 8 * k]'(by omega)) else m.lookup x := by
  unfold writeBlock
  rw [lookup_memWrite]
  simp

theorem wf_writeBlock {m : Memory} (hm : m.wf) (k : Nat) (W : Block) : (writeBlock m k W).wf := wf_memWrite hm _ _

theorem mem_writeBlock {m : Memory} {k : Nat} {W : Block} {c : Host.Cell} (h : c ∈ writeBlock m k W) :
    (8 * k ≤ c.1 ∧ c.1 < 8 * k + 8) ∨ c ∈ m := by
  rcases mem_memWrite h with h | h
  · left; simpa using h
  · exact .inr h

/-! ## A whole `RUN` -/

@[simp] theorem getElem_blockAt (s : State) (sp : Space) (k j : Nat) (h : j < 8) :
    (blockAt s sp k)[j] = byteAt s sp (8 * k + j) := by simp [blockAt]

/-- After `n` blocks: below `8 * n` the transformed bytes, above it what was there. -/
theorem lookup_runBlocks (s : State) (dir : BitVec 1) (n x : Nat) :
    (runBlocks s dir n).lookup x =
      if x < 8 * n then some ((select s dir (blockAt s .ibuf (x / 8)))[x % 8]'(Nat.mod_lt _ (by decide)))
      else s.obuf.lookup x := by
  induction n with
  | zero => simp [runBlocks]
  | succ n ih =>
    rw [runBlocks, lookup_writeBlock, ih]
    by_cases h : 8 * n ≤ x ∧ x < 8 * n + 8
    · have e1 : x / 8 = n := by omega
      have e2 : x % 8 = x - 8 * n := by omega
      have h' : x < 8 * (n + 1) := by omega
      simp only [h, and_self, dif_pos, h', if_true, e1, e2]
    · by_cases h1 : x < 8 * n
      · have h' : x < 8 * (n + 1) := by omega
        simp only [h, dif_neg, not_false_eq_true, h1, h', if_true]
      · have h' : ¬ x < 8 * (n + 1) := by omega
        simp only [h, dif_neg, not_false_eq_true, h1, h', if_false]

theorem wf_runBlocks {s : State} (h : s.obuf.wf) (dir : BitVec 1) (n : Nat) : (runBlocks s dir n).wf := by
  induction n with
  | zero => exact h
  | succ n ih => exact wf_writeBlock ih _ _

theorem mem_runBlocks {s : State} {dir : BitVec 1} {n : Nat} {c : Host.Cell} (h : c ∈ runBlocks s dir n) :
    c.1 < 8 * n ∨ c ∈ s.obuf := by
  induction n with
  | zero => exact .inr h
  | succ n ih =>
    rcases mem_writeBlock h with h | h
    · left; omega
    · rcases ih h with h | h
      · left; omega
      · exact .inr h

/-! ## Reset -/

theorem reset_ibuf_wf (p : Params) : (State.resetWith p).ibuf.wf := List.Pairwise.nil
theorem reset_obuf_wf (p : Params) : (State.resetWith p).obuf.wf := List.Pairwise.nil

end Sys2Proof.Machine
end

