-- ==== Sys2Proof/Laws/Exec.lean ====
section
/-!
SUPPORT. What each shared operation answers, and what each command answers, as one equation a proof can cite in place of
unfolding the command.
-/

namespace Sys2Proof.Machine

/-! ## The end of a command -/

/-- The state after an error: the latch and the response. -/
def afterError (e : CommandError) (s : State) : State :=
  { latchError e s with resp := some ⟨errorCode e, (errorInfo e).setWidth 32⟩ }

/-- The state after a success: the response alone. -/
def afterOk (data : Word) (s : State) : State := { s with resp := some ⟨0, data⟩ }

theorem raise_eq (e : CommandError) (s : State) : raise e s = .next (afterError e s) := rfl

theorem respondOk_eq (data : Word) (s : State) : respondOk data s = .next (afterOk data s) := rfl

/-- A command that needs the construction: its effect when `READY` = 1, `NotReadyError` otherwise. -/
def afterWhenReady (s t : State) : State := if s.ready = true then t else afterError .notReady s

theorem afterWhenReady_of_ready {s : State} (h : s.ready = true) (t : State) : afterWhenReady s t = t := if_pos h

theorem afterWhenReady_of_not_ready {s : State} (h : s.ready = false) (t : State) :
    afterWhenReady s t = afterError .notReady s := if_neg (by simp [h])

theorem whenReady_eq (s t : State) : whenReady s (.next t) = .next (afterWhenReady s t) := by
  unfold whenReady afterWhenReady
  split <;> rfl

/-- No error code is the code of success. -/
theorem errorCode_ne_zero (e : CommandError) : errorCode e ≠ 0 := by cases e <;> simp [errorCode]

theorem errorCode_le (e : CommandError) : (errorCode e).toNat ≤ 5 := by cases e <;> simp [errorCode]

/-- The response data of an error is its sub-cause. -/
theorem errorInfo_setWidth (e : CommandError) : ((errorInfo e).setWidth 32 : Word).setWidth 8 = errorInfo e := by
  apply BitVec.eq_of_toNat_eq
  have := (errorInfo e).isLt
  simp only [BitVec.toNat_setWidth]
  omega

@[simp] theorem afterError_resp (e : CommandError) (s : State) :
    (afterError e s).resp = some ⟨errorCode e, (errorInfo e).setWidth 32⟩ := rfl

@[simp] theorem afterOk_resp (data : Word) (s : State) : (afterOk data s).resp = some ⟨0, data⟩ := rfl

theorem afterError_eq (e : CommandError) (s : State) :
    afterError e s = { s with
      err := if s.err = 0 then errorCode e else s.err
      errInfo := if s.err = 0 then errorInfo e else s.errInfo
      resp := some ⟨errorCode e, (errorInfo e).setWidth 32⟩ } := by
  unfold afterError
  rw [latchError_eq]

/-- An error leaves every byte of both buffers as it was. -/
theorem byteAt_afterError (e : CommandError) (s : State) (sp : Space) (a : Nat) :
    byteAt (afterError e s) sp a = byteAt s sp a := by
  rw [afterError_eq]
  exact byteAt_congr sp a (by cases sp <;> rfl) rfl

/-! ## Each command -/

theorem exec_nop (s : State) : exec .nop s = .next (afterOk 0 s) := rfl

theorem exec_srst (s : State) : exec .srst s = .next (afterOk 0 (clearRegisters s)) := rfl

theorem exec_clrerr (s : State) : exec .clrerr s = .next (afterOk 0 (clearLatch s)) := rfl

theorem exec_rdcr (n : BitVec 8) (s : State) :
    exec (.rdcr n) s = .next ((controlRegister s n).elim (afterError .controlRegisterNumber s) fun v => afterOk v s) := by
  show execRdcr n s = _
  unfold execRdcr
  cases controlRegister s n <;> rfl

theorem exec_keyclr (s : State) : exec .keyclr s = .next (afterOk 0 { s with key := [], ready := false }) := rfl

theorem exec_keypush (d : BitVec 8) (s : State) :
    exec (.keypush d) s = .next (if s.key.length = s.params.keyMax then afterError .keyStoreFull s
      else afterOk 0 { s with key := s.key ++ [d], ready := false }) := by
  show execKeypush d s = _
  unfold execKeypush keyStoreFull
  split <;> simp_all <;> rfl

theorem exec_ldip (idx : BitVec 3) (val : BitVec 4) (s : State) :
    exec (.ldip idx val) s = .next (afterOk 0 { s with ip := setOffset s.ip idx val, ready := false }) := rfl

theorem exec_ldfp (idx : BitVec 3) (val : BitVec 4) (s : State) :
    exec (.ldfp idx val) s = .next (afterOk 0 { s with fp := setOffset s.fp idx val, ready := false }) := rfl

/-- The state after a successful `INIT`. -/
def afterInit (s : State) (hip : validTable s.ip) (hfp : validTable s.fp) (hkey : 0 < s.key.length) : State :=
  afterOk 0 { s with rk := schedule s.key hkey, ipi := invertTable s.ip hip, fpi := invertTable s.fp hfp, ready := true }

theorem exec_init_ok (s : State) (hip : validTable s.ip) (hfp : validTable s.fp) (hkey : 0 < s.key.length) :
    exec .init s = .next (afterInit s hip hfp hkey) := by
  show execInit s = _
  unfold execInit
  rw [dif_pos hip, dif_pos hfp, dif_pos hkey]
  rfl

/-- Everything `INIT` can do: construct, or report one of its three errors. -/
theorem exec_init_cases (s : State) :
    (∃ hip hfp hkey, exec .init s = .next (afterInit s hip hfp hkey)) ∨
    (¬ validTable s.ip ∧ exec .init s = .next (afterError .ipNotBijective s)) ∨
    (validTable s.ip ∧ ¬ validTable s.fp ∧ exec .init s = .next (afterError .fpNotBijective s)) ∨
    (validTable s.ip ∧ validTable s.fp ∧ s.key = [] ∧ exec .init s = .next (afterError .emptyKey s)) := by
  by_cases hip : validTable s.ip
  · by_cases hfp : validTable s.fp
    · by_cases hkey : 0 < s.key.length
      · exact .inl ⟨hip, hfp, hkey, exec_init_ok s hip hfp hkey⟩
      · refine .inr (.inr (.inr ⟨hip, hfp, by simpa using hkey, ?_⟩))
        show execInit s = _
        unfold execInit
        rw [dif_pos hip, dif_pos hfp, dif_neg hkey]
        rfl
    · refine .inr (.inr (.inl ⟨hip, hfp, ?_⟩))
      show execInit s = _
      unfold execInit
      rw [dif_pos hip, dif_neg hfp]
      rfl
  · refine .inr (.inl ⟨hip, ?_⟩)
    show execInit s = _
    unfold execInit
    rw [dif_neg hip]
    rfl

theorem exec_permip (s : State) :
    exec .permip s = .next (afterWhenReady s (afterOk 0 { s with blk := permute s.ip s.blk })) :=
  whenReady_eq s _

theorem exec_permfp (s : State) :
    exec .permfp s = .next (afterWhenReady s (afterOk 0 { s with blk := permute s.fp s.blk })) :=
  whenReady_eq s _

theorem exec_permipi (s : State) :
    exec .permipi s = .next (afterWhenReady s (afterOk 0 { s with blk := permute s.ipi s.blk })) :=
  whenReady_eq s _

theorem exec_permfpi (s : State) :
    exec .permfpi s = .next (afterWhenReady s (afterOk 0 { s with blk := permute s.fpi s.blk })) :=
  whenReady_eq s _

theorem exec_rdrk (rnd : BitVec 4) (idx : BitVec 3) (s : State) :
    exec (.rdrk rnd idx) s = .next (afterWhenReady s (afterOk ((atOffset (roundKey s.rk rnd) idx).setWidth 32) s)) :=
  whenReady_eq s _

theorem exec_round (rnd : BitVec 4) (s : State) :
    exec (.round rnd) s =
      .next (afterWhenReady s (afterOk 0 { s with blk := roundBlock s.blk (roundKey s.rk rnd) })) :=
  whenReady_eq s _

theorem exec_ldblk (idx : BitVec 3) (d : BitVec 8) (s : State) :
    exec (.ldblk idx d) s = .next (afterOk 0 { s with blk := setOffset s.blk idx d }) := rfl

theorem exec_rdblk (idx : BitVec 3) (s : State) :
    exec (.rdblk idx) s = .next (afterOk ((atOffset s.blk idx).setWidth 32) s) := rfl

theorem exec_xform (dir : BitVec 1) (s : State) :
    exec (.xform dir) s = .next (afterWhenReady s (afterOk 0 { s with blk := select s dir s.blk })) :=
  whenReady_eq s _

theorem exec_wrbuf (addr : BitVec 16) (d : BitVec 8) (s : State) :
    exec (.wrbuf addr d) s = .next (if addr.toNat < s.params.bufMax
      then afterOk 0 { s with ibuf := s.ibuf.write addr.toNat d } else afterError .bufferAddress s) := by
  show execWrbuf addr d s = _
  unfold execWrbuf addressExists
  split <;> rfl

theorem exec_setlen (n : BitVec 16) (s : State) :
    exec (.setlen n) s = .next (if n.toNat ≤ s.params.bufMax
      then afterOk 0 { s with len := n } else afterError .lengthAboveCapacity s) := by
  show execSetlen n s = _
  unfold execSetlen lengthFits
  split <;> rfl

theorem exec_run (dir : BitVec 1) (s : State) :
    exec (.run dir) s = .next (afterWhenReady s (if s.len.toNat % 8 = 0
      then afterOk (s.len.setWidth 32) { s with obuf := runBlocks s dir (s.len.toNat / 8), olen := s.len }
      else afterError (.misaligned (BitVec.ofNat 8 (s.len.toNat % 8))) s)) := by
  show execRun dir s = _
  unfold execRun
  rw [← whenReady_eq]
  congr 1
  split <;> rfl

theorem exec_rdobuf (addr : BitVec 16) (s : State) :
    exec (.rdobuf addr) s = .next (if addr.toNat < s.olen.toNat
      then afterOk ((byteAt s .obuf addr.toNat).setWidth 32) s else afterError .bufferAddress s) := by
  show execRdobuf addr s = _
  unfold execRdobuf outputValid
  split <;> rfl

/-- What a command can answer with: always a next state, which is that of an error or of a success. -/
theorem exec_answers (i : Instr) (s : State) :
    ∃ t, exec i s = .next t ∧ ((∃ e, t = afterError e s) ∨ ∃ d u, t = afterOk d u) := by
  have ready (u : State) (h : (∃ e, u = afterError e s) ∨ ∃ d v, u = afterOk d v) :
      (∃ e, afterWhenReady s u = afterError e s) ∨ ∃ d v, afterWhenReady s u = afterOk d v := by
    unfold afterWhenReady
    split
    · exact h
    · exact .inl ⟨_, rfl⟩
  have cond (p : Prop) [Decidable p] (e : CommandError) (d : Word) (u : State) :
      (∃ e', (if p then afterOk d u else afterError e s) = afterError e' s) ∨
        ∃ d' u', (if p then afterOk d u else afterError e s) = afterOk d' u' := by
    split
    · exact .inr ⟨_, _, rfl⟩
    · exact .inl ⟨_, rfl⟩
  have ok (d : Word) (u : State) : (∃ e, afterOk d u = afterError e s) ∨ ∃ d' u', afterOk d u = afterOk d' u' :=
    .inr ⟨_, _, rfl⟩
  cases i with
  | nop => exact ⟨_, exec_nop s, ok _ _⟩
  | srst => exact ⟨_, exec_srst s, ok _ _⟩
  | clrerr => exact ⟨_, exec_clrerr s, ok _ _⟩
  | rdcr n =>
    refine ⟨_, exec_rdcr n s, ?_⟩
    cases controlRegister s n with
    | none => exact .inl ⟨_, rfl⟩
    | some v => exact ok v s
  | keyclr => exact ⟨_, exec_keyclr s, ok _ _⟩
  | keypush d =>
    refine ⟨_, exec_keypush d s, ?_⟩
    split
    · exact .inl ⟨_, rfl⟩
    · exact ok _ _
  | ldip idx val => exact ⟨_, exec_ldip idx val s, ok _ _⟩
  | ldfp idx val => exact ⟨_, exec_ldfp idx val s, ok _ _⟩
  | init =>
    rcases exec_init_cases s with ⟨_, _, _, h⟩ | ⟨_, h⟩ | ⟨_, _, h⟩ | ⟨_, _, _, h⟩
    · exact ⟨_, h, ok _ _⟩
    · exact ⟨_, h, .inl ⟨_, rfl⟩⟩
    · exact ⟨_, h, .inl ⟨_, rfl⟩⟩
    · exact ⟨_, h, .inl ⟨_, rfl⟩⟩
  | permip => exact ⟨_, exec_permip s, ready _ (ok _ _)⟩
  | permfp => exact ⟨_, exec_permfp s, ready _ (ok _ _)⟩
  | permipi => exact ⟨_, exec_permipi s, ready _ (ok _ _)⟩
  | permfpi => exact ⟨_, exec_permfpi s, ready _ (ok _ _)⟩
  | rdrk rnd idx => exact ⟨_, exec_rdrk rnd idx s, ready _ (ok _ _)⟩
  | round rnd => exact ⟨_, exec_round rnd s, ready _ (ok _ _)⟩
  | ldblk idx d => exact ⟨_, exec_ldblk idx d s, ok _ _⟩
  | rdblk idx => exact ⟨_, exec_rdblk idx s, ok _ _⟩
  | xform dir => exact ⟨_, exec_xform dir s, ready _ (ok _ _)⟩
  | wrbuf addr d => exact ⟨_, exec_wrbuf addr d s, cond _ _ _ _⟩
  | setlen n => exact ⟨_, exec_setlen n s, cond _ _ _ _⟩
  | run dir => exact ⟨_, exec_run dir s, ready _ (cond _ _ _ _)⟩
  | rdobuf addr => exact ⟨_, exec_rdobuf addr s, cond _ _ _ _⟩

end Sys2Proof.Machine
end

