-- ==== Sys2Proof/Laws/PerInstr.lean ====
section
/-!
SUPPORT. Statements per command about the command as syntax: `WellFormed` (its operands fit their fields) and `Written`
(assembling what it is written as gives it back, 30_encoding.md R88).
-/

namespace Sys2Proof.Laws.WellFormed

/-- The operands of the command fit their fields. -/
def Statement (i : Instr) : Prop := i.wellFormed = true

theorem nop : Statement .nop := rfl
theorem srst : Statement .srst := rfl
theorem clrerr : Statement .clrerr := rfl
theorem rdcr (n : BitVec 8) : Statement (.rdcr n) := by
  simp [Statement, Instr.wellFormed, Source.wellFormed, Instr.toSource, Mnemonic.widths, operandsFit, n.isLt]
theorem keyclr : Statement .keyclr := rfl
theorem keypush (d : BitVec 8) : Statement (.keypush d) := by
  simp [Statement, Instr.wellFormed, Source.wellFormed, Instr.toSource, Mnemonic.widths, operandsFit, d.isLt]
theorem ldip (idx : BitVec 3) (val : BitVec 4) : Statement (.ldip idx val) := by
  simp [Statement, Instr.wellFormed, Source.wellFormed, Instr.toSource, Mnemonic.widths, operandsFit, idx.isLt, val.isLt]
theorem ldfp (idx : BitVec 3) (val : BitVec 4) : Statement (.ldfp idx val) := by
  simp [Statement, Instr.wellFormed, Source.wellFormed, Instr.toSource, Mnemonic.widths, operandsFit, idx.isLt, val.isLt]
theorem init : Statement .init := rfl
theorem permip : Statement .permip := rfl
theorem permfp : Statement .permfp := rfl
theorem permipi : Statement .permipi := rfl
theorem permfpi : Statement .permfpi := rfl
theorem rdrk (rnd : BitVec 4) (idx : BitVec 3) : Statement (.rdrk rnd idx) := by
  simp [Statement, Instr.wellFormed, Source.wellFormed, Instr.toSource, Mnemonic.widths, operandsFit, rnd.isLt, idx.isLt]
theorem round (rnd : BitVec 4) : Statement (.round rnd) := by
  simp [Statement, Instr.wellFormed, Source.wellFormed, Instr.toSource, Mnemonic.widths, operandsFit, rnd.isLt]
theorem ldblk (idx : BitVec 3) (d : BitVec 8) : Statement (.ldblk idx d) := by
  simp [Statement, Instr.wellFormed, Source.wellFormed, Instr.toSource, Mnemonic.widths, operandsFit, idx.isLt, d.isLt]
theorem rdblk (idx : BitVec 3) : Statement (.rdblk idx) := by
  simp [Statement, Instr.wellFormed, Source.wellFormed, Instr.toSource, Mnemonic.widths, operandsFit, idx.isLt]
theorem xform (dir : BitVec 1) : Statement (.xform dir) := by
  simp [Statement, Instr.wellFormed, Source.wellFormed, Instr.toSource, Mnemonic.widths, operandsFit, dir.isLt]
theorem wrbuf (addr : BitVec 16) (d : BitVec 8) : Statement (.wrbuf addr d) := by
  simp [Statement, Instr.wellFormed, Source.wellFormed, Instr.toSource, Mnemonic.widths, operandsFit, addr.isLt, d.isLt]
theorem setlen (n : BitVec 16) : Statement (.setlen n) := by
  simp [Statement, Instr.wellFormed, Source.wellFormed, Instr.toSource, Mnemonic.widths, operandsFit, n.isLt]
theorem run (dir : BitVec 1) : Statement (.run dir) := by
  simp [Statement, Instr.wellFormed, Source.wellFormed, Instr.toSource, Mnemonic.widths, operandsFit, dir.isLt]
theorem rdobuf (addr : BitVec 16) : Statement (.rdobuf addr) := by
  simp [Statement, Instr.wellFormed, Source.wellFormed, Instr.toSource, Mnemonic.widths, operandsFit, addr.isLt]

end Sys2Proof.Laws.WellFormed

namespace Sys2Proof.Laws.Written

open Sys2Proof.Machine

/-- The command is what its written form assembles to. -/
def Statement (i : Instr) : Prop := assemble i.toSource = some i

theorem nop : Statement .nop := rfl
theorem srst : Statement .srst := rfl
theorem clrerr : Statement .clrerr := rfl
theorem rdcr (n : BitVec 8) : Statement (.rdcr n) := by
  have h : (Instr.rdcr n).toSource.wellFormed = true := WellFormed.rdcr n
  unfold Statement assemble
  rw [if_pos h]
  simp [Instr.toSource, buildInstr]
theorem keyclr : Statement .keyclr := rfl
theorem keypush (d : BitVec 8) : Statement (.keypush d) := by
  have h : (Instr.keypush d).toSource.wellFormed = true := WellFormed.keypush d
  unfold Statement assemble
  rw [if_pos h]
  simp [Instr.toSource, buildInstr]
theorem ldip (idx : BitVec 3) (val : BitVec 4) : Statement (.ldip idx val) := by
  have h : (Instr.ldip idx val).toSource.wellFormed = true := WellFormed.ldip idx val
  unfold Statement assemble
  rw [if_pos h]
  simp [Instr.toSource, buildInstr]
theorem ldfp (idx : BitVec 3) (val : BitVec 4) : Statement (.ldfp idx val) := by
  have h : (Instr.ldfp idx val).toSource.wellFormed = true := WellFormed.ldfp idx val
  unfold Statement assemble
  rw [if_pos h]
  simp [Instr.toSource, buildInstr]
theorem init : Statement .init := rfl
theorem permip : Statement .permip := rfl
theorem permfp : Statement .permfp := rfl
theorem permipi : Statement .permipi := rfl
theorem permfpi : Statement .permfpi := rfl
theorem rdrk (rnd : BitVec 4) (idx : BitVec 3) : Statement (.rdrk rnd idx) := by
  have h : (Instr.rdrk rnd idx).toSource.wellFormed = true := WellFormed.rdrk rnd idx
  unfold Statement assemble
  rw [if_pos h]
  simp [Instr.toSource, buildInstr]
theorem round (rnd : BitVec 4) : Statement (.round rnd) := by
  have h : (Instr.round rnd).toSource.wellFormed = true := WellFormed.round rnd
  unfold Statement assemble
  rw [if_pos h]
  simp [Instr.toSource, buildInstr]
theorem ldblk (idx : BitVec 3) (d : BitVec 8) : Statement (.ldblk idx d) := by
  have h : (Instr.ldblk idx d).toSource.wellFormed = true := WellFormed.ldblk idx d
  unfold Statement assemble
  rw [if_pos h]
  simp [Instr.toSource, buildInstr]
theorem rdblk (idx : BitVec 3) : Statement (.rdblk idx) := by
  have h : (Instr.rdblk idx).toSource.wellFormed = true := WellFormed.rdblk idx
  unfold Statement assemble
  rw [if_pos h]
  simp [Instr.toSource, buildInstr]
theorem xform (dir : BitVec 1) : Statement (.xform dir) := by
  have h : (Instr.xform dir).toSource.wellFormed = true := WellFormed.xform dir
  unfold Statement assemble
  rw [if_pos h]
  simp [Instr.toSource, buildInstr]
theorem wrbuf (addr : BitVec 16) (d : BitVec 8) : Statement (.wrbuf addr d) := by
  have h : (Instr.wrbuf addr d).toSource.wellFormed = true := WellFormed.wrbuf addr d
  unfold Statement assemble
  rw [if_pos h]
  simp [Instr.toSource, buildInstr]
theorem setlen (n : BitVec 16) : Statement (.setlen n) := by
  have h : (Instr.setlen n).toSource.wellFormed = true := WellFormed.setlen n
  unfold Statement assemble
  rw [if_pos h]
  simp [Instr.toSource, buildInstr]
theorem run (dir : BitVec 1) : Statement (.run dir) := by
  have h : (Instr.run dir).toSource.wellFormed = true := WellFormed.run dir
  unfold Statement assemble
  rw [if_pos h]
  simp [Instr.toSource, buildInstr]
theorem rdobuf (addr : BitVec 16) : Statement (.rdobuf addr) := by
  have h : (Instr.rdobuf addr).toSource.wellFormed = true := WellFormed.rdobuf addr
  unfold Statement assemble
  rw [if_pos h]
  simp [Instr.toSource, buildInstr]

end Sys2Proof.Laws.Written
end

