-- ==== Sys2Proof/Laws/Run.lean ====
section
/-!
SUPPORT. Steps one after the other: what a step takes from the port, and how a run of commands unrolls.
-/

namespace Sys2Proof.Machine

@[simp] theorem takeEvent_eq (s : State) : takeEvent s = { s with port := s.port.tail } := rfl

/-- A step on an empty port. -/
theorem step_of_empty {s : State} (h : s.port = []) : step s = .next s := by
  simp [step, nextEvent, h, idle]

/-- A step that takes a hardware reset. -/
theorem step_of_hardwareReset {s : State} {rest : List PortEvent} (h : s.port = .hardwareReset :: rest) :
    step s = .next (hardwareReset { s with port := rest }) := by
  simp [step, nextEvent, h]

/-- A step that takes a word which is no command. -/
theorem step_of_illegal {s : State} {cw : Word} {rest : List PortEvent} {why : IllegalWord}
    (h : s.port = .command cw :: rest) (hd : decode cw = .illegal why) :
    step s = illegalCommand why { s with port := rest } := by
  simp [step, nextEvent, h, hd]

@[simp] theorem runSteps_zero (s : State) : runSteps 0 s = .next s := rfl

theorem runSteps_succ {s t : State} (n : Nat) (h : step s = .next t) : runSteps (n + 1) s = runSteps n t := by
  show (match step s with
    | .next t => runSteps n t
    | .fault f => .fault f
    | .refused r => .refused r) = runSteps n t
  rw [h]

/-- A run of `m + n` steps is `m` steps and then `n`. -/
theorem runSteps_add {s t : State} (m n : Nat) (h : runSteps m s = .next t) : runSteps (m + n) s = runSteps n t := by
  induction m generalizing s with
  | zero =>
    cases h
    rw [Nat.zero_add]
  | succ m ih =>
    have h' : (match step s with
      | .next u => runSteps m u
      | .fault f => .fault f
      | .refused r => .refused r) = .next t := h
    rw [Nat.add_right_comm]
    cases hs : step s with
    | next u =>
      rw [hs] at h'
      rw [runSteps_succ _ hs]
      exact ih h'
    | fault f => rw [hs] at h'; cases h'
    | refused r => rw [hs] at h'; cases h'

end Sys2Proof.Machine
end

