-- ==== Sys2Proof/Tests/Slice0.lean ====
section
/-!
SUPPORT. Tests of the model against the words and values of 95_test_vectors.md (V and S numbers are that file's) and of the
format tables of 30_encoding.md, and the witnesses that the hypotheses of each statement can be met.
-/

namespace Sys2Proof.Machine.Tests

set_option Elab.async false

/-! ## Helpers -/

/-- The Block of vectors V10, V13 and V22. -/
def demoBlock : Block := #v[0x10, 0x21, 0x32, 0x43, 0x54, 0x65, 0x76, 0x87]

/-- The tables of vectors V22 and V30. -/
def demoIp : Table := #v[2, 3, 4, 5, 6, 7, 8, 1]
def demoFp : Table := #v[8, 7, 6, 5, 4, 3, 2, 1]

/-- The input buffer of vector V30. -/
def demoInput : Memory :=
  [(0, 0x00), (1, 0x01), (2, 0x02), (3, 0x03), (4, 0x04), (5, 0x05), (6, 0x06), (7, 0x07)] ++
  [(8, 0x08), (9, 0x09), (10, 0x0A), (11, 0x0B), (12, 0x0C), (13, 0x0D), (14, 0x0E), (15, 0x0F)]

/-- Vector V30's engine before `INIT`: key A1 B2 C3, both tables, the Block of V22, sixteen input bytes. -/
def unready (mode : DecMode) : State :=
  { State.resetWith { keyMax := 256, bufMax := 4096, decMode := mode } with
    key := [0xA1, 0xB2, 0xC3], ip := demoIp, fp := demoFp, blk := demoBlock, ibuf := demoInput, len := 16 }

/-- The same engine configured. -/
def ready (mode : DecMode) : State :=
  { unready mode with
    rk := schedule [0xA1, 0xB2, 0xC3] (by decide), ipi := invertTable demoIp (by decide)
    fpi := invertTable demoFp (by decide), ready := true }

def fwd : State := ready .forward
def bwd : State := ready .inverse

/-- The state after the one command word. -/
def after (s : State) (cw : Nat) : Option State :=
  match step (s.withFetchWord 32 cw) with
  | .next t => some t
  | .fault _ => none
  | .refused _ => none

/-- The response to the one command word. -/
def answer (s : State) (cw : Nat) : Option (Byte × Word) :=
  ((after s cw).bind (·.resp)).map fun r => (r.code, r.data)

/-- The state after one command, by `exec`. -/
def done (i : Instr) (s : State) : Option State :=
  match exec i s with
  | .next t => some t
  | .fault _ => none
  | .refused _ => none

/-- The response to one command, by `exec`. -/
def reply (i : Instr) (s : State) : Option (Byte × Word) := ((done i s).bind (·.resp)).map fun r => (r.code, r.data)

/-! ## Written commands that are no commands (R88) -/

theorem test_wellFormed_operand_count :
    (Source.mk .nop [0]).wellFormed = false ∧ (Source.mk .ldip [0]).wellFormed = false ∧
    (Source.mk .run []).wellFormed = false := by decide

theorem test_wellFormed_operand_width :
    (Source.mk .ldip [8, 0]).wellFormed = false ∧ (Source.mk .ldfp [0, 16]).wellFormed = false ∧
    (Source.mk .rdrk [16, 0]).wellFormed = false ∧ (Source.mk .xform [2]).wellFormed = false ∧
    (Source.mk .keypush [256]).wellFormed = false ∧ (Source.mk .setlen [65536]).wellFormed = false := by decide

theorem test_assemble_refuses_what_does_not_fit :
    assemble ⟨.wrbuf, [65536, 0]⟩ = none ∧ assemble ⟨.wrbuf, [65535, 255]⟩ = some (.wrbuf 0xFFFF 0xFF) := by decide

/-! ## Decoding: a word for every command (V1 and R83) -/

theorem test_decode_nop : decode 0x00000000 = .command .nop := by decide
theorem test_decode_srst : decode 0x01000000 = .command .srst := by decide
theorem test_decode_clrerr : decode 0x02000000 = .command .clrerr := by decide
theorem test_decode_rdcr : decode 0x0300000A = .command (.rdcr 10) := by decide
theorem test_decode_keyclr : decode 0x10000000 = .command .keyclr := by decide
theorem test_decode_keypush : decode 0x110000A1 = .command (.keypush 0xA1) := by decide
theorem test_decode_ldip : decode 0x12000002 = .command (.ldip 0 2) := by decide
theorem test_decode_ldfp : decode 0x13000701 = .command (.ldfp 7 1) := by decide
theorem test_decode_init : decode 0x14000000 = .command .init := by decide
theorem test_decode_permip : decode 0x20000000 = .command .permip := by decide
theorem test_decode_permfp : decode 0x21000000 = .command .permfp := by decide
theorem test_decode_permipi : decode 0x22000000 = .command .permipi := by decide
theorem test_decode_permfpi : decode 0x23000000 = .command .permfpi := by decide
theorem test_decode_rdrk : decode 0x280F0000 = .command (.rdrk 15 0) := by decide
theorem test_decode_rdrk_offset : decode 0x28010700 = .command (.rdrk 1 7) := by decide
theorem test_decode_round : decode 0x300F0000 = .command (.round 15) := by decide
theorem test_decode_ldblk : decode 0x40000343 = .command (.ldblk 3 0x43) := by decide
theorem test_decode_rdblk : decode 0x41000100 = .command (.rdblk 1) := by decide
theorem test_decode_xform : decode 0x42000001 = .command (.xform 1) := by decide
theorem test_decode_wrbuf : decode 0x500FFFFF = .command (.wrbuf 4095 0xFF) := by decide
theorem test_decode_setlen : decode 0x51100000 = .command (.setlen 4096) := by decide
theorem test_decode_run : decode 0x52000001 = .command (.run 1) := by decide
theorem test_decode_rdobuf : decode 0x53000800 = .command (.rdobuf 8) := by decide

/-- V2: undefined opcodes. -/
theorem test_decode_undefined_opcodes :
    ∀ w ∈ [0x04000000, 0xFFFFFFFF, 0x15000000, 0x54000000], decode (BitVec.ofNat 32 w) = .illegal .undefinedOpcode := by
  decide +kernel

/-- V2: reserved bits. -/
theorem test_decode_reserved_bits :
    ∀ w ∈ [0x00000001, 0x14000001, 0x12000802, 0x12000012, 0x28100000, 0x30000100, 0x42000002,
      0x51000001, 0x53000001, 0x03000100, 0x41000001], decode (BitVec.ofNat 32 w) = .illegal .reservedBit := by
  decide +kernel

/-- V2 and V3: the nearest accepted words. -/
theorem test_decode_nearest_words :
    decode 0x12000702 = .command (.ldip 7 2) ∧ decode 0x1200000F = .command (.ldip 0 15) ∧
    decode 0x030000FF = .command (.rdcr 255) ∧ decode 0x41000700 = .command (.rdblk 7) ∧
    decode 0x50100000 = .command (.wrbuf 4096 0) := by decide

/-- R83: no two rows of the opcode map have the same opcode. -/
theorem test_opcodes_distinct : opcodeRows.Pairwise fun a b => a.op ≠ b.op := by decide

/-- What the host reads rows of the opcode table with. -/
theorem test_decodeTableWord :
    decodeTableWord 32 0x52000001 = some (.run 1) ∧ decodeTableWord 32 0x52000002 = none := by decide

/-! ## Assembler text (R88, R89) -/

theorem test_assemble_numbers : assembleText "LDIP 0, 2\n KEYPUSH 0xA1 ; first byte".toList = some [0x12000002, 0x110000A1] := by
  decide +kernel

theorem test_assemble_register_name : assembleText "RDCR BUFMAX".toList = some [0x03000009] := by decide +kernel

theorem test_assemble_pseudo :
    assembleText "LOADKEY 0xA1,0xB2\nDECRYPT".toList = some [0x10000000, 0x110000A1, 0x110000B2, 0x52000001] := by
  decide +kernel

theorem test_assemble_errors :
    assembleText "LDIP 8, 1".toList = none ∧ assembleText "LOADKEY".toList = none ∧ assembleText "HALT".toList = none := by
  decide +kernel

/-! ## The pure functions -/

/-- V10. -/
theorem test_permute : permute #v[3, 1, 4, 2, 8, 6, 5, 7] demoBlock = #v[0x32, 0x10, 0x43, 0x21, 0x87, 0x65, 0x54, 0x76] := by
  decide +kernel

/-- V11. -/
theorem test_validTable :
    validTable #v[3, 1, 4, 2, 8, 6, 5, 7] ∧ ¬ validTable #v[0, 0, 0, 0, 0, 0, 0, 0] ∧
    ¬ validTable #v[1, 2, 3, 4, 5, 6, 7, 7] ∧ ¬ validTable #v[0, 2, 3, 4, 5, 6, 7, 8] ∧
    ¬ validTable #v[1, 2, 3, 4, 5, 6, 7, 9] ∧ ¬ validTable #v[1, 2, 3, 4, 5, 6, 7, 15] := by decide +kernel

/-- V12. -/
theorem test_invertTable : invertTable #v[3, 1, 4, 2, 8, 6, 5, 7] (by decide +kernel) = #v[2, 4, 1, 3, 7, 6, 8, 5] := by
  decide +kernel

/-- V17: round keys 0, 4 and 15 of the three-byte key, and the mask. -/
theorem test_schedule_three_bytes :
    fwd.rk[0] = #v[0xA1, 0xB2, 0xC3, 0xA1, 0xB2, 0xC3, 0xA1, 0xB2] ∧
    fwd.rk[4] = #v[0xB2, 0xC3, 0xA1, 0xB2, 0xC3, 0xA1, 0xB2, 0xC3] ∧
    fwd.rk[15] = #v[0xA1, 0xB2, 0xC3, 0xA1, 0xB2, 0xC3, 0xA1, 0xB2] ∧
    maskOf fwd.rk = #v[0x71, 0x62, 0x13, 0x71, 0x62, 0x13, 0x71, 0x62] := by decide +kernel

/-- V18: the mask of a five-byte key. -/
theorem test_mask_five_bytes :
    maskOf (schedule [1, 2, 3, 4, 5] (by decide)) = #v[0x00, 0x03, 0x02, 0x05, 0x04, 0x00, 0x03, 0x02] := by decide +kernel

/-! ## One step of each command -/

theorem test_nop : answer fwd 0x00000000 = some (0, 0) := by decide +kernel

/-- V44. -/
theorem test_srst :
    (after fwd 0x01000000).map (fun t => (t.klen, t.ready, t.len, t.olen, t.blk[0])) = some (0, false, 0, 0, 0) ∧
    (after fwd 0x01000000).map (·.ibuf) = some demoInput := by decide +kernel

theorem test_clrerr :
    (after { fwd with err := 5, errInfo := 2 } 0x02000000).map (fun t => (t.err, t.errInfo)) = some (0, 0) := by decide +kernel

/-- V40 and V14. -/
theorem test_rdcr :
    answer State.reset 0x03000000 = some (0, 0x53420810) ∧ answer State.reset 0x03000001 = some (0, 0) ∧
    answer (State.resetWith bwd.params) 0x03000001 = some (0, 4) ∧ answer State.reset 0x03000008 = some (0, 0x100) ∧
    answer State.reset 0x03000009 = some (0, 0x1000) ∧ answer State.reset 0x0300000A = some (5, 1) ∧
    ∀ w ∈ [0x03000002, 0x03000003, 0x03000004, 0x03000005, 0x03000006, 0x03000007], answer State.reset w = some (0, 0) := by
  decide +kernel

/-- V14, V40, V50. -/
theorem test_rdcr_fields :
    answer fwd 0x03000001 = some (0, 1) ∧ answer { fwd with err := 1, errInfo := 1 } 0x03000002 = some (0, 0x101) ∧
    answer fwd 0x03000003 = some (0, 3) ∧ answer fwd 0x03000004 = some (0, 16) ∧ answer fwd 0x03000005 = some (0, 0) ∧
    answer fwd 0x03000006 = some (0, 0x18765432) ∧ answer fwd 0x03000007 = some (0, 0x12345678) := by decide +kernel

/-- V42. -/
theorem test_keyclr : (after fwd 0x10000000).map (fun t => (t.key, t.ready)) = some ([], false) := by decide +kernel

theorem test_keypush :
    (after fwd 0x1100000F).map (fun t => (t.key, t.ready)) = some ([0xA1, 0xB2, 0xC3, 0x0F], false) := by decide +kernel

/-- V43: the ninth byte of an eight-byte store. -/
theorem test_keypush_full :
    let full := { fwd with key := [1, 2, 3, 4, 5, 6, 7, 8], params := { keyMax := 8, bufMax := 4096, decMode := .forward } }
    answer full 0x11000009 = some (5, 4) ∧ (after full 0x11000009).map (fun t => (t.klen, t.ready)) = some (8, true) := by
  decide +kernel

/-- V42: the value already there, and `READY` drops all the same. -/
theorem test_ldip :
    (after fwd 0x12000002).map (fun t => (t.ip, t.ready)) = some (demoIp, false) ∧
    (after State.reset 0x12000701).map (·.ip) = some #v[0, 0, 0, 0, 0, 0, 0, 1] := by decide +kernel

theorem test_ldfp :
    (after fwd 0x13000008).map (fun t => (t.fp, t.ready)) = some (demoFp, false) ∧
    (after State.reset 0x13000701).map (·.fp) = some #v[0, 0, 0, 0, 0, 0, 0, 1] := by decide +kernel

/-- V12 and V41. -/
theorem test_init :
    answer (unready .forward) 0x14000000 = some (0, 0) ∧
    (after (unready .forward) 0x14000000).map (fun t => (t.ready, t.ipi, t.fpi)) =
      some (true, #v[8, 1, 2, 3, 4, 5, 6, 7], demoFp) := by decide +kernel

/-- V41. -/
theorem test_init_errors :
    answer State.reset 0x14000000 = some (1, 1) ∧
    answer { State.reset with ip := demoIp } 0x14000000 = some (1, 2) ∧
    answer { unready .forward with key := [] } 0x14000000 = some (1, 3) := by decide +kernel

/-- V13. -/
theorem test_permip :
    (after fwd 0x20000000).map (·.blk) = some #v[0x21, 0x32, 0x43, 0x54, 0x65, 0x76, 0x87, 0x10] := by decide +kernel
theorem test_permfp :
    (after fwd 0x21000000).map (·.blk) = some #v[0x87, 0x76, 0x65, 0x54, 0x43, 0x32, 0x21, 0x10] := by decide +kernel
theorem test_permipi :
    (after fwd 0x22000000).map (·.blk) = some #v[0x87, 0x10, 0x21, 0x32, 0x43, 0x54, 0x65, 0x76] := by decide +kernel
theorem test_permfpi :
    (after fwd 0x23000000).map (·.blk) = some #v[0x87, 0x76, 0x65, 0x54, 0x43, 0x32, 0x21, 0x10] := by decide +kernel

/-- V14, V18, V19, V27, V34: without the construction. -/
theorem test_not_ready :
    ∀ w ∈ [0x20000000, 0x21000000, 0x22000000, 0x23000000, 0x28000000, 0x30000000, 0x42000000, 0x52000000],
      answer { unready .forward with len := 7 } w = some (3, 0) := by decide +kernel

/-- V17. -/
theorem test_rdrk : answer fwd 0x280F0000 = some (0, 0xA1) ∧ answer fwd 0x28010700 = some (0, 0xC3) := by decide +kernel

/-- V19. -/
theorem test_round :
    let s := { fwd with blk := #v[0x21, 0x32, 0x43, 0x54, 0x65, 0x76, 0x87, 0x10] }
    (after s 0x30000000).map (·.blk) = some #v[0x80, 0x80, 0x80, 0xF5, 0xD7, 0xB5, 0x26, 0xA2] ∧
    (after s 0x30010000).map (·.blk) = some #v[0x93, 0xF1, 0xE2, 0xE6, 0xA6, 0xD7, 0x35, 0xD3] ∧
    (after s 0x30020000).map (·.blk) = some #v[0xE2, 0x93, 0xF1, 0x97, 0xC4, 0xC4, 0x44, 0xB1] := by decide +kernel

/-- V27. -/
theorem test_ldblk :
    (after State.reset 0x40000343).map (·.blk) = some #v[0, 0, 0, 0x43, 0, 0, 0, 0] := by decide +kernel
theorem test_rdblk : answer fwd 0x41000300 = some (0, 0x43) ∧ answer State.reset 0x41000700 = some (0, 0) := by decide +kernel

/-- V22. -/
theorem test_xform :
    (after fwd 0x42000000).map (·.blk) = some #v[0x72, 0xF6, 0x65, 0x07, 0x25, 0x50, 0x50, 0x50] := by decide +kernel

/-- V24 and V25: the flag under both modes. -/
theorem test_xform_flag :
    let out : Block := #v[0x72, 0xF6, 0x65, 0x07, 0x25, 0x50, 0x50, 0x50]
    (after { fwd with blk := out } 0x42000001).map (·.blk) = some #v[0x10, 0x21, 0x43, 0x32, 0x54, 0x14, 0x07, 0x87] ∧
    (after { bwd with blk := out } 0x42000001).map (·.blk) = some demoBlock := by decide +kernel

/-- V35. -/
theorem test_wrbuf :
    (after State.reset 0x500FFFFF).map (·.ibuf) = some [(4095, 0xFF)] ∧
    answer State.reset 0x50100000 = some (5, 2) := by decide +kernel

/-- A byte written between two listed ones, and one written again. -/
theorem test_wrbuf_order :
    (after { State.reset with ibuf := [(1, 7), (4, 8)] } 0x50000209).map (·.ibuf) = some [(1, 7), (2, 9), (4, 8)] ∧
    (after { State.reset with ibuf := [(1, 7), (4, 8)] } 0x50000409).map (·.ibuf) = some [(1, 7), (4, 9)] := by decide +kernel

/-- V35. -/
theorem test_setlen :
    (after State.reset 0x51100000).map (·.len) = some 4096 ∧ answer State.reset 0x51100100 = some (5, 3) := by decide +kernel

/-- V30: every byte of both output blocks, the one that D0's code leaves wrong among them (S8). -/
theorem test_run :
    answer fwd 0x52000000 = some (0, 0x10) ∧
    (after fwd 0x52000000).map (·.obuf) = some (
      [(0, 0x62), (1, 0x76), (2, 0x15), (3, 0x67), (4, 0x75), (5, 0x10), (6, 0x60), (7, 0x70)] ++
      [(8, 0x6A), (9, 0x7E), (10, 0x1D), (11, 0x6F), (12, 0x7D), (13, 0x18), (14, 0x68), (15, 0x78)]) := by decide +kernel

/-- V33. -/
theorem test_run_lengths :
    answer { fwd with len := 0 } 0x52000000 = some (0, 0) ∧ answer { fwd with len := 7 } 0x52000000 = some (2, 7) ∧
    answer { fwd with len := 9 } 0x52000001 = some (2, 1) ∧ answer { fwd with len := 8 } 0x52000001 = some (0, 8) := by
  decide +kernel

/-- V35 and V36. -/
theorem test_rdobuf :
    let s := { unready .forward with obuf := [(8, 0x6A)], olen := 16 }
    answer s 0x53000800 = some (0, 0x6A) ∧ answer s 0x53001000 = some (5, 2) ∧
    answer State.reset 0x53000000 = some (5, 2) := by decide +kernel

/-- V2 and V50: an illegal word answers with its sub-cause, and the first error stays latched. -/
theorem test_illegal_words :
    answer fwd 0x04000000 = some (4, 1) ∧ answer fwd 0x12000802 = some (4, 2) ∧
    (after { fwd with err := 1, errInfo := 1 } 0x04000000).map (fun t => (t.err, t.errInfo)) = some (1, 1) := by
  decide +kernel

/-! ## Witnesses: the hypotheses of each statement that has some, all met together -/

/-- A configured state meets the whole invariant. -/
theorem ready_inv (mode : DecMode) : StateInv (ready mode) where
  construction _ := ⟨by cases mode <;> decide +kernel, by cases mode <;> decide +kernel, by cases mode <;> decide, rfl, rfl, rfl⟩
  klen_le := by cases mode <;> decide +kernel
  len_le := by cases mode <;> decide +kernel
  olen_le := by cases mode <;> decide +kernel
  olen_aligned := by cases mode <;> decide +kernel
  errInfo_zero _ := rfl
  params_wf := by cases mode <;> decide +kernel
  err_le := by cases mode <;> decide +kernel
  ibuf_wf := by cases mode <;> decide +kernel
  obuf_wf := by cases mode <;> decide +kernel
  ibuf_within := by cases mode <;> decide +kernel
  obuf_within := by cases mode <;> decide +kernel
  output_written := by cases mode <;> decide +kernel

theorem ready_constructed (mode : DecMode) : constructed (ready mode) := (ready_inv mode).construction rfl

/-- A state of the invariant with valid output: vector V30's engine after its `RUN 0`. -/
def ran : State :=
  { fwd with
    olen := 8
    obuf := [(0, 0x62), (1, 0x76), (2, 0x15), (3, 0x67), (4, 0x75), (5, 0x10), (6, 0x60), (7, 0x70)] }

theorem ran_inv : StateInv ran where
  construction _ := ready_constructed .forward
  klen_le := by decide +kernel
  len_le := by decide +kernel
  olen_le := by decide +kernel
  olen_aligned := by decide +kernel
  errInfo_zero _ := rfl
  params_wf := by decide +kernel
  err_le := by decide +kernel
  ibuf_wf := by decide +kernel
  obuf_wf := by decide +kernel
  ibuf_within := by decide +kernel
  obuf_within := by decide +kernel
  output_written := by decide +kernel

theorem witness_StepRunsTheDecodedCommand :
    ((fwd.withFetchWord 32 0x51001000).port = .command 0x51001000 :: [] ∧ decode 0x51001000 = .command (.setlen 16) ∧
      (Instr.setlen 16).wellFormed = true) ∧ fwd.port = [] := by decide +kernel

theorem witness_DecodeInvertsEncode : (Instr.wrbuf 0xFFFF 0xFF).wellFormed = true ∧ Instr.nop.wellFormed = true := by decide

theorem witness_EveryWordHasExactlyOneMeaning :
    reservedBits (opField 0x54000000) = none ∧
    reservedBits (opField 0x00000001) = some 0x00FFFFFF ∧ (0x00000001#32 &&& 0x00FFFFFF) ≠ 0 ∧
    reservedBits (opField 0x50FFFFFF) = some 0 ∧ (0x50FFFFFF#32 &&& 0) = 0 := by decide

theorem witness_IllegalWordsOnlyTouchTheLatch :
    (fwd.withFetchWord 32 0xFFFFFFFF).port = .command 0xFFFFFFFF :: [] ∧ reservedBits (opField 0xFFFFFFFF) = none ∧
    (fwd.withFetchWord 32 0x12000802).port = .command 0x12000802 :: [] ∧
    reservedBits (opField 0x12000802) = some 0x00FFF8F0 ∧ (0x12000802#32 &&& 0x00FFF8F0) ≠ 0 := by decide +kernel

theorem witness_EveryCommandWordIsAnswered :
    (fwd.withFetchWord 32 0x04000000).port = .command 0x04000000 :: [] ∧
    decode 0x04000000 = .illegal .undefinedOpcode := by decide +kernel

theorem witness_AssemblerKeepsTheOperands : assemble ⟨.ldblk, [7, 255]⟩ = some (.ldblk 7 0xFF) := by decide

/-- The three states agree on what `SRST` keeps, and differ in the key, the tables and the Block. -/
theorem witness_SrstErasesTheKey :
    fwd.ibuf = { State.reset with ibuf := demoInput }.ibuf ∧ fwd.params = { State.reset with ibuf := demoInput }.params ∧
    fwd.port = { State.reset with ibuf := demoInput }.port ∧ fwd.resets = { State.reset with ibuf := demoInput }.resets ∧
    fwd.key ≠ { State.reset with ibuf := demoInput }.key := by decide +kernel

/-- Both ends of the ten numbers, and the first and the last number that select nothing. -/
theorem witness_RdcrReadsTheControlRegisters :
    (9 < (10 : BitVec 8).toNat ∧ 9 < (255 : BitVec 8).toNat) ∧
    ((0 : BitVec 8).toNat ≤ 9 ∧ (9 : BitVec 8).toNat ≤ 9) ∧ fwd.params.wf ∧ fwd.klen ≤ fwd.params.keyMax ∧
    1 ≤ (7 : BitVec 8).toNat ∧ (7 : BitVec 8).toNat ≤ 7 := by decide +kernel

/-- A full key store at the bound of `KEY_MAX`, and one with room for one byte more. -/
theorem witness_KeypushAppendsOneByte :
    let p : Params := { keyMax := 8, bufMax := 8, decMode := .forward }
    let full : State := { State.resetWith p with key := List.replicate 8 0 }
    let room : State := { State.resetWith p with key := List.replicate 7 0 }
    (full.klen = full.params.keyMax ∧ reply (.keypush 0xFF) full = some (5, 4)) ∧
    room.klen ≠ room.params.keyMax ∧ reply (.keypush 0xFF) room = some (0, 0) := by decide +kernel

/-- The first and the last entry of a table, written with the largest raw value. -/
theorem witness_LdipLdfp_boundaries :
    (done (.ldip 7 15) fwd).map (fun t => (t.ip[6], t.ip[7])) = some (8, 15) ∧
    (done (.ldfp 0 15) fwd).map (fun t => (t.fp[0], t.fp[1])) = some (15, 7) := by decide +kernel

theorem witness_InitDerivesKeysAndInverseTables : validTable fwd.ip ∧ validTable fwd.fp ∧ 0 < fwd.klen := by decide +kernel

/-- Each of the three checks failing alone, and all of them together. -/
theorem witness_InitReportsTheFirstBadPart :
    (¬ validTable State.reset.ip ∧ ¬ validTable State.reset.fp ∧ State.reset.klen = 0) ∧
    (validTable demoIp ∧ ¬ validTable #v[1, 2, 3, 4, 5, 6, 7, 7]) ∧
    (validTable demoIp ∧ validTable demoFp ∧ { fwd with key := [] }.klen = 0) := by decide +kernel

theorem witness_InitWhileReadyChangesNothing : StateInv ran ∧ ran.ready = true := ⟨ran_inv, rfl⟩

/-- `READY` rising by `INIT`, falling by a configuration write and by `SRST`. -/
theorem witness_ReadyRisesAndFallsOnlyAsSaid :
    ((unready .forward).ready = false ∧ (done .init (unready .forward)).map (·.ready) = some true) ∧
    (fwd.ready = true ∧ (done (.keypush 0x0F) fwd).map (·.ready) = some false) ∧
    (done .srst fwd).map (·.ready) = some false ∧ reply .keyclr fwd = some (0, 0) := by decide +kernel

theorem witness_ConfigurationIsFrozenWhileReady :
    (done (.round 0) fwd).map (·.ready) = some true ∧ (done .init fwd).map (·.ready) = some true ∧
    Instr.round 0 ≠ .init := by decide +kernel

theorem witness_BringUpConfiguresTheEngine :
    let s : State := { State.reset with port := commands (bringUp demoIp demoFp [0xA1]) ++ [.hardwareReset] }
    s.params.wf ∧ validTable demoIp ∧ validTable demoFp ∧ 0 < [(0xA1 : Byte)].length ∧
    [(0xA1 : Byte)].length ≤ s.params.keyMax ∧
    s.port = commands (bringUp demoIp demoFp [0xA1]) ++ [.hardwareReset] := by decide +kernel

theorem witness_PermutationsGatherThroughTheTables :
    fwd.ready = true ∧ validTable fwd.ip ∧ validTable fwd.fp ∧ (unready .forward).ready = false := by decide +kernel

theorem witness_InversePermutationsScatterThroughTheTables : fwd.ready = true ∧ constructed fwd :=
  ⟨rfl, ready_constructed .forward⟩

theorem witness_InverseTableUndoesTheTable : validTable #v[3, 1, 4, 2, 8, 6, 5, 7] := by decide +kernel

/-- Two rotations compose to a rotation by two. -/
theorem witness_PermuteIsALinearRearrangement :
    let W : Table := #v[3, 4, 5, 6, 7, 8, 1, 2]
    validTable demoIp ∧ ∀ i : Fin 8, demoIp[demoIp[i].toNat - 1]? = some W[i] := by decide +kernel

theorem witness_RdrkReturnsTheScheduledKeyByte :
    fwd.ready = true ∧ constructed fwd ∧ (unready .forward).ready = false := ⟨rfl, ready_constructed .forward, rfl⟩

/-- Periods 1 and 15, and two keys of different lengths whose first 23 bytes agree. -/
theorem witness_RoundKeysAreARotatingWindow :
    (0 < [(1 : Byte)].length ∧ 14 + [(1 : Byte)].length < 16 ∧ 0 + (List.replicate 15 (1 : Byte)).length < 16) ∧
    22 < (List.replicate 23 (1 : Byte)).length ∧ 22 < (List.replicate 24 (1 : Byte)).length ∧
    (List.replicate 23 (1 : Byte)).take 23 = (List.replicate 24 (1 : Byte)).take 23 := by decide +kernel

theorem witness_RoundXorsTheChosenKey : fwd.ready = true ∧ (unready .forward).ready = false := ⟨rfl, rfl⟩
theorem witness_RoundTwiceRestoresTheBlock : bwd.ready = true := rfl

/-- All four combinations of the mode and the flag that select a transform. -/
theorem witness_XformAppliesTheSelectedTransform :
    (fwd.ready = true ∧ ¬ (fwd.params.decMode = .inverse ∧ (1 : BitVec 1) = 1)) ∧
    (bwd.ready = true ∧ (bwd.params.decMode = .inverse ∧ (1 : BitVec 1) = 1)) ∧
    ¬ (bwd.params.decMode = .inverse ∧ (0 : BitVec 1) = 1) ∧ (unready .inverse).ready = false := by decide +kernel

theorem witness_ForwardModeIgnoresTheFlag : fwd.params.decMode = .forward := rfl

theorem witness_StagesComposeToXform :
    let stages : List Instr := [.permip] ++ (List.range 16).map (fun i => .round (BitVec.ofNat 4 i)) ++ [.permfp]
    let s : State := { fwd with port := commands stages ++ [] }
    s.ready = true ∧ s.port = commands stages ++ [] ∧ s.port.length = 18 := by decide +kernel

theorem witness_SixteenRoundsAreOneMask :
    ∀ n ∈ [1, 2, 4, 8], 0 < (List.replicate n (0x5A : Byte)).length ∧ (List.replicate n (0x5A : Byte)).length ∈ [1, 2, 4, 8] := by
  decide +kernel

theorem witness_EngineInverseUndoesEngineForward : validTable demoIp ∧ validTable demoFp := by decide +kernel

theorem witness_InverseModeRoundTripOnTheBlock : StateInv bwd ∧ bwd.ready = true ∧ bwd.params.decMode = .inverse :=
  ⟨ready_inv .inverse, rfl, rfl⟩

theorem witness_MutualInverseTablesUndoThemselves : validTable #v[2, 4, 1, 3, 7, 6, 8, 5] := by decide +kernel

/-- The last address that exists and the first that does not. -/
theorem witness_WrbufStoresOneByte :
    ¬ fwd.params.bufMax ≤ (4095 : BitVec 16).toNat ∧ fwd.params.bufMax ≤ (4096 : BitVec 16).toNat := by decide +kernel

/-- The largest length that fits and the smallest that does not. -/
theorem witness_SetlenSetsTheLength :
    ¬ fwd.params.bufMax < (4096 : BitVec 16).toNat ∧ fwd.params.bufMax < (4097 : BitVec 16).toNat := by decide +kernel

/-- Two blocks, none at all, and the two refusals. -/
theorem witness_RunTransformsEveryBlock :
    (fwd.ready = true ∧ fwd.len.toNat % 8 = 0 ∧ 1 < fwd.len.toNat / 8) ∧
    { fwd with len := 0 }.len.toNat % 8 = 0 ∧ (unready .forward).ready = false ∧
    { fwd with len := 15 }.len.toNat % 8 ≠ 0 := by decide +kernel

theorem witness_RunIsTheFileCodec :
    fwd.ready = true ∧ fwd.len.toNat % 8 = 0 ∧ reply (.run 0) fwd = some (0, 16) := by decide +kernel

theorem witness_CodecNeedsWholeBlocks :
    let buf : List Byte := [1, 2, 3, 4, 5, 6, 7, 8]
    let B : Block := #v[1, 2, 3, 4, 5, 6, 7, 8]
    (codec id buf = some buf ∧ 0 < buf.length / 8 ∧ ∀ j : Fin 8, buf[8 * 0 + j.val]? = some B[j]) ∧
    codec id [] = some [] ∧ codec id [1] = none := by decide +kernel

theorem witness_RunRefusesAPartialBlock :
    { fwd with len := 7 }.ready = true ∧ { fwd with len := 7 }.len.toNat % 8 ≠ 0 ∧ { fwd with len := 9 }.len.toNat % 8 ≠ 0 := by
  decide +kernel

/-- V31: the second block of one buffer is the first block of the other. -/
theorem witness_OutputBlocksAreIndependent :
    let other : State :=
      { fwd with
        len := 8
        ibuf := [(0, 0x08), (1, 0x09), (2, 0x0A), (3, 0x0B), (4, 0x0C), (5, 0x0D), (6, 0x0E), (7, 0x0F)] }
    reply (.run 0) fwd = some (0, fwd.len.setWidth 32) ∧ reply (.run 0) other = some (0, other.len.setWidth 32) ∧
    fwd.params = other.params ∧ fwd.ip = other.ip ∧ fwd.fp = other.fp ∧ fwd.ipi = other.ipi ∧ fwd.fpi = other.fpi ∧
    fwd.rk = other.rk ∧ 1 < fwd.len.toNat / 8 ∧ 0 < other.len.toNat / 8 ∧
    ∀ j < 8, byteAt fwd .ibuf (8 * 1 + j) = byteAt other .ibuf (8 * 0 + j) := by decide +kernel

theorem witness_InverseCodecRestoresTheBuffer :
    constructed bwd ∧ bwd.params.decMode = .inverse ∧
    codec (select bwd 0) [0, 1, 2, 3, 4, 5, 6, 7] = some [0x62, 0x76, 0x15, 0x67, 0x75, 0x10, 0x60, 0x70] :=
  ⟨ready_constructed .inverse, rfl, by decide +kernel⟩

/-- The last valid output byte and the first that is not. -/
theorem witness_RdobufReadsValidOutput :
    ¬ ran.olen.toNat ≤ (7 : BitVec 16).toNat ∧ ran.olen.toNat ≤ (8 : BitVec 16).toNat := by decide +kernel

theorem witness_ProcessingNeedsTheConstruction :
    needsReady (.xform 1) = true ∧ needsReady (.run 0) = true ∧ (unready .forward).ready = false := by decide +kernel

/-- A command that fails with the latch empty, and one with an error latched already. -/
theorem witness_FailuresArePreciseAndLatchedOnce :
    reply .init State.reset = some (1, 1) ∧ (1 : Byte) ≠ 0 ∧
    reply (.xform 0) { State.reset with err := 1, errInfo := 1 } = some (3, 0) := by decide +kernel

theorem witness_SuccessKeepsTheLatch :
    reply (.xform 0) { fwd with err := 1, errInfo := 1 } = some (0, 0) ∧
    reply .clrerr { fwd with err := 1, errInfo := 1 } = some (0, 0) := by decide +kernel

/-- V33: the largest remainder. -/
theorem witness_OnlyTheListedErrorsAreRaised : reply (.run 0) { fwd with len := 15 } = some (2, 7) := by decide +kernel

theorem witness_LatchedErrorsBlockNothing :
    reply (.rdcr 3) fwd = some (0, 3) ∧ Instr.rdcr 3 ≠ .rdcr 1 ∧ Instr.rdcr 3 ≠ .rdcr 2 := by decide +kernel

theorem witness_StateIsWrittenOnlyByTheListedCommands : reply (.run 1) fwd = some (0, 16) := by decide +kernel

theorem witness_HardwareResetReturnsTheResetRegisters :
    { ran with port := [.hardwareReset, .command 0] }.port = .hardwareReset :: [.command 0] := rfl

/-- The smallest and the largest parameters. -/
theorem witness_ResetMeetsTheInvariant :
    Params.standard.wf ∧ (Params.mk 8 8 .forward).wf ∧ (Params.mk 65535 65528 .inverse).wf := by decide +kernel

theorem witness_EveryStepKeepsTheInvariant : StateInv ran ∧ (after ran 0x52000000).isSome = true :=
  ⟨ran_inv, by decide +kernel⟩

theorem witness_ReachableStatesAreConsistent : Params.standard.wf := by decide +kernel

/-- Two states that differ in the hidden round keys, inverse tables and stale output. -/
theorem witness_HiddenStateIsUnobservable :
    let s : State := unready .forward
    let t : State := { unready .forward with
      rk := fwd.rk, ipi := fwd.ipi, fpi := fwd.fpi, obuf := [(3, 0x55)] }
    ObsEq s t ∧ s ≠ t := by
  refine ⟨?_, by decide +kernel⟩
  exact {
    key := rfl, ip := rfl, fp := rfl, ready := rfl, rk := fun h => absurd h (by decide)
    ipi := fun h => absurd h (by decide), fpi := fun h => absurd h (by decide), blk := rfl, ibuf := rfl, len := rfl
    output := fun a h => absurd h (Nat.not_lt_zero a), olen := rfl, err := rfl, errInfo := rfl, params := rfl
    port := rfl, resp := rfl, resets := rfl }

end Sys2Proof.Machine.Tests
end

/-!
# The encoding family (30_encoding.md)

What a word that is no command does (R84, R85), and that every command word is answered (R72).
-/

namespace Sys2Proof.Machine

/-! ## The opcode map against the format tables (R74 to R83) -/

/-- The opcode map and the format tables agree: below the opcode, a row's mask is its format's reserved bits. -/
theorem reservedBits_of_mem_opcodeRows :
    ∀ r ∈ opcodeRows, reservedBits r.op = some (r.mask &&& 0x00FFFFFF) := by
  decide

/-- Only an opcode with a row of the opcode map has a format. -/
theorem reservedBits_of_no_row {op : BitVec 8} (h : ∀ r ∈ opcodeRows, op ≠ r.op) : reservedBits op = none := by
  simp only [opcodeRows, configurationRows, stageRows, dataRows, List.forall_mem_append, List.forall_mem_cons,
    BitVec.ofNat_eq_ofNat] at h
  simp [reservedBits, h]

/-- Below the opcode, a row's `match` value is 0. -/
theorem pattern_and_low (r : OpcodeRow) : r.pattern &&& 0x00FFFFFF = 0 := by
  ext i hi
  have hpat : r.pattern[i] = (decide (24 ≤ i) && r.op.getLsbD (i - 24)) := getElem_opWord r.op i hi
  have hlow : ∀ i, (h : i < 32) → 24 ≤ i → (0x00FFFFFF#32)[i] = false := by decide
  by_cases h24 : 24 ≤ i
  · simp [hlow i hi h24]
  · simp [hpat, h24]

/-! ## Words that are no command (R84, R85) -/

/-- The row found for an opcode gives the opcode's reserved bits. -/
theorem reservedBits_of_find?_opcodeRows {op : BitVec 8} {r : OpcodeRow}
    (h : opcodeRows.find? (fun r => r.op == op) = some r) : reservedBits op = some (r.mask &&& 0x00FFFFFF) := by
  have hop : r.op = op := by simpa using List.find?_some h
  exact hop ▸ reservedBits_of_mem_opcodeRows r (List.mem_of_find?_eq_some h)

/-- R84: an opcode without a format is undefined. -/
theorem decode_of_reservedBits_none {w : Word} (h : reservedBits (opField w) = none) :
    decode w = .illegal .undefinedOpcode := by
  refine decode_of_no_row rfl ?_
  cases hrow : opcodeRows.find? (fun r => r.op == opField w) with
  | none => rfl
  | some r =>
    simp [reservedBits_of_find?_opcodeRows hrow] at h

/-- R85: a set reserved bit makes the word differ from its row's `match` under the mask. -/
theorem decode_of_reservedBits_set {w m : Word} (h : reservedBits (opField w) = some m) (hset : w &&& m ≠ 0) :
    decode w = .illegal .reservedBit := by
  cases hrow : opcodeRows.find? (fun r => r.op == opField w) with
  | none =>
    have hno : reservedBits (opField w) = none :=
      reservedBits_of_no_row fun r hr hop => by
        simpa [hop] using List.find?_eq_none.mp hrow r hr
    simp [hno] at h
  | some r =>
    obtain rfl : m = r.mask &&& 0x00FFFFFF := by simpa [h] using reservedBits_of_find?_opcodeRows hrow
    have hmask : ¬ w &&& r.mask = r.pattern := fun hfix =>
      hset (by rw [← BitVec.and_assoc, hfix, pattern_and_low r])
    unfold decode
    rw [hrow]
    exact if_neg hmask

/-- The error a word that is no command raises (R84, R85). -/
def illegalError : IllegalWord → CommandError
  | .undefinedOpcode => .undefinedOpcode
  | .reservedBit => .reservedBit

theorem illegalCommand_eq (why : IllegalWord) (s : State) :
    illegalCommand why s = .next (afterError (illegalError why) s) := by
  cases why <;> rfl

@[simp] theorem errorCode_illegalError (why : IllegalWord) : errorCode (illegalError why) = 4 := by
  cases why <;> rfl

/-- The state after an error is that of a failed command. -/
theorem failsWith_afterError (e : CommandError) (s : State) :
    failsWith s (afterError e s) (errorCode e) (errorInfo e) :=
  afterError_eq e s

/-- A step on a word that is no command fails as its error says. -/
theorem step_of_illegal_fails {s : State} {cw : Word} {rest : List PortEvent} {why : IllegalWord}
    (h : s.port = .command cw :: rest) (hd : decode cw = .illegal why) :
    ∃ t, step s = .next t ∧ failsWith { s with port := rest } t 4 (errorInfo (illegalError why)) := by
  refine ⟨_, (step_of_illegal h hd).trans (illegalCommand_eq why _), ?_⟩
  simpa using failsWith_afterError (illegalError why) { s with port := rest }

/-- Settles O5: a set reserved bit fails the row's mask, and an opcode without a format has no row; either way the step
is the error's. -/
theorem illegalWordsOnlyTouchTheLatch : Obligations.IllegalWordsOnlyTouchTheLatch := by
  intro s cw rest hport
  refine ⟨fun hnone => ?_, fun m hsome hset => ?_⟩
  · exact step_of_illegal_fails hport (decode_of_reservedBits_none hnone)
  · exact step_of_illegal_fails hport (decode_of_reservedBits_set hsome hset)

/-! ## Every command word is answered (R72) -/

/-- A step that takes the word of a command. -/
theorem step_of_command {s : State} {cw : Word} {rest : List PortEvent} {i : Instr}
    (h : s.port = .command cw :: rest) (hd : decode cw = .command i) : step s = exec i { s with port := rest } := by
  simp [step, nextEvent, h, hd]

@[simp] theorem afterOk_port (data : Word) (s : State) : (afterOk data s).port = s.port := rfl

@[simp] theorem afterError_port (e : CommandError) (s : State) : (afterError e s).port = s.port :=
  latchError_port e s

theorem afterWhenReady_port {s t : State} (h : t.port = s.port) : (afterWhenReady s t).port = s.port := by
  unfold afterWhenReady
  split
  · exact h
  · exact afterError_port .notReady s

/-- No command writes the port: the engine takes an event only in `step`. -/
theorem exec_port {i : Instr} {s t : State} (h : exec i s = .next t) : t.port = s.port := by
  have answers : ∃ u, exec i s = .next u ∧ u.port = s.port := by
    cases i with
    | nop => exact ⟨_, exec_nop s, rfl⟩
    | srst => exact ⟨_, exec_srst s, rfl⟩
    | clrerr => exact ⟨_, exec_clrerr s, rfl⟩
    | rdcr n => exact ⟨_, exec_rdcr n s, by cases controlRegister s n <;> simp⟩
    | keyclr => exact ⟨_, exec_keyclr s, rfl⟩
    | keypush d => exact ⟨_, exec_keypush d s, by split <;> simp⟩
    | ldip idx val => exact ⟨_, exec_ldip idx val s, rfl⟩
    | ldfp idx val => exact ⟨_, exec_ldfp idx val s, rfl⟩
    | init =>
      rcases exec_init_cases s with ⟨_, _, _, h⟩ | ⟨_, h⟩ | ⟨_, _, h⟩ | ⟨_, _, _, h⟩
      · exact ⟨_, h, rfl⟩
      · exact ⟨_, h, afterError_port _ s⟩
      · exact ⟨_, h, afterError_port _ s⟩
      · exact ⟨_, h, afterError_port _ s⟩
    | permip => exact ⟨_, exec_permip s, afterWhenReady_port rfl⟩
    | permfp => exact ⟨_, exec_permfp s, afterWhenReady_port rfl⟩
    | permipi => exact ⟨_, exec_permipi s, afterWhenReady_port rfl⟩
    | permfpi => exact ⟨_, exec_permfpi s, afterWhenReady_port rfl⟩
    | rdrk rnd idx => exact ⟨_, exec_rdrk rnd idx s, afterWhenReady_port rfl⟩
    | round rnd => exact ⟨_, exec_round rnd s, afterWhenReady_port rfl⟩
    | ldblk idx d => exact ⟨_, exec_ldblk idx d s, rfl⟩
    | rdblk idx => exact ⟨_, exec_rdblk idx s, rfl⟩
    | xform dir => exact ⟨_, exec_xform dir s, afterWhenReady_port rfl⟩
    | wrbuf addr d => exact ⟨_, exec_wrbuf addr d s, by split <;> simp⟩
    | setlen n => exact ⟨_, exec_setlen n s, by split <;> simp⟩
    | run dir => exact ⟨_, exec_run dir s, afterWhenReady_port (by split <;> simp)⟩
    | rdobuf addr => exact ⟨_, exec_rdobuf addr s, by split <;> simp⟩
  obtain ⟨u, hu, hport⟩ := answers
  cases h.symm.trans hu
  exact hport

/-- A command answers with a code of R211, 0 to 5. -/
theorem exec_responds (i : Instr) (s : State) :
    ∃ t r, exec i s = .next t ∧ t.resp = some r ∧ r.code.toNat ≤ 5 := by
  obtain ⟨t, ht, ⟨e, rfl⟩ | ⟨d, u, rfl⟩⟩ := exec_answers i s
  · exact ⟨_, _, ht, afterError_resp e s, errorCode_le e⟩
  · exact ⟨_, _, ht, afterOk_resp d u, Nat.zero_le 5⟩

/-- Settles O6: a word that decodes is answered by `exec`, which leaves the port alone, and any other by its error. -/
theorem everyCommandWordIsAnswered : Obligations.EveryCommandWordIsAnswered := by
  intro s cw rest hport
  cases hd : decode cw with
  | command i =>
    obtain ⟨t, r, ht, hresp, hcode⟩ := exec_responds i { s with port := rest }
    exact ⟨t, r, (step_of_command hport hd).trans ht, hresp, hcode, exec_port ht, nofun⟩
  | illegal why =>
    have hstep := (step_of_illegal hport hd).trans (illegalCommand_eq why _)
    exact ⟨_, _, hstep, afterError_resp _ _, errorCode_le _, afterError_port _ _, fun _ _ => errorCode_illegalError why⟩

end Sys2Proof.Machine

/-!
# Housekeeping and configuration (40_config_and_status.md sections 1 and 2)

The words of the commands as numbers, the control registers bit by bit (R33 to R42), and what `NOP`, `CLRERR`, `RDCR`,
`KEYCLR`, `KEYPUSH`, `LDIP` and `LDFP` change (R100 to R107).
-/

namespace Sys2Proof.Machine

/-! ## The fields of a word side by side (R82, R90) -/

/-- A field above another shares no bit with it. -/
theorem fieldAt_and_fieldAt {m n hi lo : Nat} (u : BitVec m) (v : BitVec n) (h : lo + n ≤ hi) :
    fieldAt u hi &&& fieldAt v lo = 0 := by
  ext i hi32
  rw [BitVec.getElem_and, getElem_fieldAt, getElem_fieldAt]
  by_cases hi' : hi ≤ i
  · simp [BitVec.getLsbD_of_ge v (i - lo) (by omega)]
  · simp [hi']

/-- The opcode is the field at bit 24, above every operand field. -/
theorem opWord_and_fieldAt {n lo : Nat} (op : BitVec 8) (v : BitVec n) (h : lo + n ≤ 24) :
    opWord op &&& fieldAt v lo = 0 := fieldAt_and_fieldAt op v h

theorem fieldAt_zero {n : Nat} (v : BitVec n) : fieldAt v 0 = v.setWidth 32 := BitVec.shiftLeft_zero _

/-- A field moved up by `lo` bits is multiplied by `2 ^ lo`. -/
theorem fieldAt_eq_mul {n : Nat} (v : BitVec n) (lo : Nat) : fieldAt v lo = v.setWidth 32 * BitVec.twoPow 32 lo :=
  BitVec.shiftLeft_eq_mul_twoPow _ _

/-- A command word with one field, as a sum. -/
theorem opWord_or_fieldAt {n lo : Nat} (op : BitVec 8) (v : BitVec n) (h : lo + n ≤ 24) :
    opWord op ||| fieldAt v lo = opWord op + fieldAt v lo :=
  (BitVec.add_eq_or_of_and_eq_zero _ _ (opWord_and_fieldAt op v h)).symm

/-- A command word with two fields, as a sum. -/
theorem opWord_or_fieldAt_or_fieldAt {m n hi lo : Nat} (op : BitVec 8) (u : BitVec m) (v : BitVec n)
    (hhi : hi + m ≤ 24) (hlo : lo + n ≤ hi) :
    opWord op ||| fieldAt u hi ||| fieldAt v lo = opWord op + fieldAt u hi + fieldAt v lo := by
  have hdisjoint : (opWord op ||| fieldAt u hi) &&& fieldAt v lo = 0 := by
    rw [BitVec.and_comm, BitVec.and_or_distrib_left, BitVec.and_comm, opWord_and_fieldAt op v (by omega),
      BitVec.and_comm, fieldAt_and_fieldAt u v hlo, BitVec.or_self]
  rw [← BitVec.add_eq_or_of_and_eq_zero _ _ hdisjoint, opWord_or_fieldAt op u hhi]

/-- The word of a command with one byte operand (format B, R75). -/
theorem opWord_or_byte (op d : BitVec 8) : opWord op ||| fieldAt d 0 = opWord op + d.setWidth 32 := by
  rw [opWord_or_fieldAt op d (by decide), fieldAt_zero]

/-- The word of a command that writes a table entry (format T, R78). -/
theorem opWord_or_entry (op : BitVec 8) (idx : BitVec 3) (val : Entry) :
    opWord op ||| fieldAt idx 8 ||| fieldAt val 0 = opWord op + idx.setWidth 32 * 0x100 + val.setWidth 32 := by
  rw [opWord_or_fieldAt_or_fieldAt op idx val (by decide) (by decide), fieldAt_eq_mul idx, fieldAt_zero]
  rfl

/-! ## The fields of a word, read back -/

theorem getLsbD_fieldAt {n : Nat} (v : BitVec n) (lo i : Nat) (h : i < 32) :
    (fieldAt v lo).getLsbD i = (decide (lo ≤ i) && v.getLsbD (i - lo)) := getElem_fieldAt v lo i h

theorem extractLsb'_fieldAt_self {n lo : Nat} (v : BitVec n) (h : lo + n ≤ 32) :
    (fieldAt v lo).extractLsb' lo n = v := by
  ext i hi
  rw [BitVec.getElem_extractLsb', getLsbD_fieldAt v lo (lo + i) (by omega)]
  simp [hi]

/-- The bits beside a field are 0. -/
theorem extractLsb'_fieldAt_of_disjoint {n lo a m : Nat} (v : BitVec n) (h32 : a + m ≤ 32)
    (h : a + m ≤ lo ∨ lo + n ≤ a) : (fieldAt v lo).extractLsb' a m = 0 := by
  ext i hi
  rw [BitVec.getElem_extractLsb', getLsbD_fieldAt v lo (a + i) (by omega)]
  rcases h with habove | hbelow
  · have hlo : ¬ lo ≤ a + i := by omega
    simp [hlo]
  · simp [BitVec.getLsbD_of_ge v (a + i - lo) (by omega)]

/-! ## What a command without an error leaves of the buffers -/

/-- A state that shares both memories and the count of resets reads the same bytes. -/
theorem sameBytes_of_memory {s t : State} (hi : t.ibuf = s.ibuf) (ho : t.obuf = s.obuf) (hr : t.resets = s.resets) :
    sameBytes s t := by
  intro sp a
  cases sp with
  | ibuf => exact byteAt_congr .ibuf a hi hr
  | obuf => exact byteAt_congr .obuf a ho hr

/-! ## Commands without operands: `NOP`, `CLRERR`, `KEYCLR` (R100, R102, R104) -/

/-- Settles O8: the response is all that a success adds. -/
theorem nopOnlyResponds : Obligations.NopOnlyResponds :=
  ⟨rfl, exec_nop⟩

/-- Settles O11: `clearLatch` writes the two fields of the latch. -/
theorem clrerrClearsTheLatch : Obligations.ClrerrClearsTheLatch :=
  ⟨rfl, exec_clrerr⟩

/-- Settles O13: the key and `READY` are the only fields written besides the response. -/
theorem keyclrEmptiesTheKey : Obligations.KeyclrEmptiesTheKey :=
  ⟨rfl, fun s => ⟨_, exec_keyclr s, rfl, sameBytes_of_memory rfl rfl rfl, rfl⟩⟩

/-! ## `KEYPUSH`, `LDIP`, `LDFP` (R105 to R107) -/

theorem exec_keypush_full {s : State} (d : BitVec 8) (h : s.klen = s.params.keyMax) :
    exec (.keypush d) s = .next (afterError .keyStoreFull s) :=
  (exec_keypush d s).trans (congrArg _ (if_pos h))

theorem exec_keypush_room {s : State} (d : BitVec 8) (h : s.klen ≠ s.params.keyMax) :
    exec (.keypush d) s = .next (afterOk 0 { s with key := s.key ++ [d], ready := false }) :=
  (exec_keypush d s).trans (congrArg _ (if_neg h))

/-- Settles O14: the two cases of the key store, full or with room for one byte. -/
theorem keypushAppendsOneByte : Obligations.KeypushAppendsOneByte := by
  refine ⟨opWord_or_byte 0x11, fun s d => ?_⟩
  by_cases hfull : s.klen = s.params.keyMax
  · refine ⟨_, exec_keypush_full d hfull, ?_⟩
    rw [if_pos hfull]
    exact failsWith_afterError .keyStoreFull s
  · refine ⟨_, exec_keypush_room d hfull, ?_⟩
    rw [if_neg hfull]
    exact ⟨List.length_append, List.getElem?_concat_length, fun n hn => List.getElem?_append_left hn,
      sameBytes_of_memory rfl rfl rfl, rfl⟩

/-- A written element, and the seven others. -/
theorem getElem_setOffset {α : Type} (v : Vector α 8) (idx : BitVec 3) (x : α) (i : Fin 8) :
    (setOffset v idx x)[i] = if i.val = idx.toNat then x else v[i] := by
  simp only [setOffset, Fin.getElem_fin, Vector.getElem_set, eq_comm]

/-- Settles O15: the entry is stored as it is, and IP and `READY` are the only fields written besides the response. -/
theorem ldipWritesOneEntry : Obligations.LdipWritesOneEntry :=
  ⟨opWord_or_entry 0x12, fun s idx val =>
    ⟨_, exec_ldip idx val s, getElem_setOffset s.ip idx val, sameBytes_of_memory rfl rfl rfl, rfl⟩⟩

/-- Settles O16: as O15, with FP. -/
theorem ldfpWritesOneEntry : Obligations.LdfpWritesOneEntry :=
  ⟨opWord_or_entry 0x13, fun s idx val =>
    ⟨_, exec_ldfp idx val s, getElem_setOffset s.fp idx val, sameBytes_of_memory rfl rfl rfl, rfl⟩⟩

/-! ## The control registers (R33 to R42) -/

/-- A number selects a register exactly if it is 0 to 9 (R31). -/
theorem controlRegister_eq_none_iff (s : State) (n : BitVec 8) : controlRegister s n = none ↔ 9 < n.toNat := by
  unfold controlRegister
  split
  case h_11 =>
    simp only [imp_false, true_iff] at *
    omega
  all_goals simp [*]

theorem bitWord_eq_fieldAt (b : Bool) : bitWord b = fieldAt (BitVec.ofBool b) 0 := by
  cases b <;> rfl

/-- `STATUS` is made of three fields of one bit (R34). -/
theorem statusWord_eq_fields (s : State) :
    statusWord s = fieldAt (BitVec.ofBool s.ready) 0 ||| fieldAt (BitVec.ofBool (s.err != 0)) 1 |||
      fieldAt (BitVec.ofBool (s.params.decMode == .inverse)) 2 := by
  simp only [statusWord, bitWord_eq_fieldAt, fieldAt_zero]
  rfl

theorem statusWord_bits (s : State) :
    (statusWord s).getLsbD 0 = s.ready ∧ ((statusWord s).getLsbD 1 = true ↔ s.err ≠ 0) ∧
      ((statusWord s).getLsbD 2 = true ↔ s.params.decMode = .inverse) ∧ (statusWord s).extractLsb' 3 29 = 0 := by
  rw [statusWord_eq_fields]
  refine ⟨?_, ?_, ?_, ?_⟩
  case refine_4 => simp [BitVec.extractLsb'_or, extractLsb'_fieldAt_of_disjoint]
  all_goals simp [getElem_fieldAt]

/-- The register `ERR` is made of two fields of one byte (R35). -/
theorem errorWord_eq_fields (s : State) : errorWord s = fieldAt s.err 0 ||| fieldAt s.errInfo 8 := by
  rw [fieldAt_zero]
  rfl

theorem errorWord_bytes (s : State) :
    (errorWord s).extractLsb' 0 8 = s.err ∧ (errorWord s).extractLsb' 8 8 = s.errInfo ∧
      (errorWord s).extractLsb' 16 16 = 0 := by
  simp [errorWord_eq_fields, BitVec.extractLsb'_or, extractLsb'_fieldAt_self, extractLsb'_fieldAt_of_disjoint]

/-- A table register is made of eight fields of one entry (R39, R40). -/
theorem tableRegister_eq_fields (T : Table) :
    tableRegister T = fieldAt T[0] 0 ||| fieldAt T[1] 4 ||| fieldAt T[2] 8 ||| fieldAt T[3] 12 |||
      fieldAt T[4] 16 ||| fieldAt T[5] 20 ||| fieldAt T[6] 24 ||| fieldAt T[7] 28 := by
  rw [fieldAt_zero]
  rfl

theorem extractLsb'_tableRegister (T : Table) (i : Fin 8) : (tableRegister T).extractLsb' (4 * i.val) 4 = T[i] := by
  rw [tableRegister_eq_fields]
  fin_cases i <;>
    simp [BitVec.extractLsb'_or, extractLsb'_fieldAt_self, extractLsb'_fieldAt_of_disjoint]

theorem toNat_halfRegister (v : Half) : (halfRegister v).toNat = v.toNat :=
  BitVec.toNat_setWidth_of_le (by decide)

/-- A quantity of at most 16 bits is shown whole. -/
theorem toNat_halfRegister_ofNat {k : Nat} (h : k ≤ 65535) : (halfRegister (BitVec.ofNat 16 k)).toNat = k := by
  rw [toNat_halfRegister, BitVec.toNat_ofNat, Nat.mod_eq_of_lt (by omega)]

/-! ### After reset (R46) -/

theorem statusWord_resetWith (p : Params) :
    statusWord (State.resetWith p) = if p.decMode = .inverse then 4 else 0 := by
  obtain ⟨keyMax, bufMax, _ | _⟩ := p <;> simp [statusWord, State.resetWith, bitWord]

theorem errorWord_resetWith (p : Params) : errorWord (State.resetWith p) = 0 := by
  simp [errorWord, State.resetWith]

theorem tableRegister_zero : tableRegister (Vector.replicate 8 0) = 0 := by
  decide

/-- After reset `STATUS` reads as `DECM` alone and registers 2 to 7 read 0. -/
theorem controlRegister_resetWith (p : Params) {n : BitVec 8} (h1 : 1 ≤ n.toNat) (h7 : n.toNat ≤ 7) :
    controlRegister (State.resetWith p) n = some (if n = 1 ∧ p.decMode = .inverse then 4 else 0) := by
  obtain rfl | rfl | rfl | rfl | rfl | rfl | rfl :
    n = 1 ∨ n = 2 ∨ n = 3 ∨ n = 4 ∨ n = 5 ∨ n = 6 ∨ n = 7 := by bv_omega
  · exact congrArg some ((statusWord_resetWith p).trans (by simp))
  · exact congrArg some (errorWord_resetWith p)
  · rfl
  · rfl
  · rfl
  · exact congrArg some tableRegister_zero
  · exact congrArg some tableRegister_zero

/-! ## `RDCR` (R103) -/

theorem exec_rdcr_of_some {s : State} {n : BitVec 8} {v : Word} (h : controlRegister s n = some v) :
    exec (.rdcr n) s = .next (afterOk v s) := by
  rw [exec_rdcr, h]
  rfl

theorem exec_rdcr_of_none {s : State} {n : BitVec 8} (h : controlRegister s n = none) :
    exec (.rdcr n) s = .next (afterError .controlRegisterNumber s) := by
  rw [exec_rdcr, h]
  rfl

/-- Settles O12: 0 to 9 select a register, each of which shows its fields or its quantity, and 10 to 255 select none. -/
theorem rdcrReadsTheControlRegisters : Obligations.RdcrReadsTheControlRegisters := by
  refine ⟨opWord_or_byte 0x03, fun s n hn => ?_, fun s n hn hwf hkey => ?_, fun p n h1 h7 => ?_⟩
  · exact ⟨_, exec_rdcr_of_none ((controlRegister_eq_none_iff s n).mpr hn),
      failsWith_afterError .controlRegisterNumber s⟩
  · obtain ⟨hkeyMin, hkeyMax, hbufAligned, hbufMin, hbufMax⟩ := hwf
    obtain ⟨v, hv⟩ : ∃ v, controlRegister s n = some v :=
      Option.ne_none_iff_exists'.mp fun h => absurd ((controlRegister_eq_none_iff s n).mp h) (by omega)
    refine ⟨v, exec_rdcr_of_some hv, ?_, ?_, ?_, ?_, ?_, ?_, ?_, ?_, ?_, ?_⟩ <;>
      (rintro rfl; cases hv)
    · rfl
    · exact statusWord_bits s
    · exact errorWord_bytes s
    · exact toNat_halfRegister_ofNat (by omega)
    · exact toNat_halfRegister s.len
    · exact toNat_halfRegister s.olen
    · exact extractLsb'_tableRegister s.ip
    · exact extractLsb'_tableRegister s.fp
    · exact toNat_halfRegister_ofNat hkeyMax
    · exact toNat_halfRegister_ofNat (by omega)
  · exact exec_rdcr_of_some (controlRegister_resetWith p h1 h7)

end Sys2Proof.Machine

/-!
# The permutation network (41_permutation.md)

What `PERMIP` and `PERMFP` do with BLK (R120, R124, R125), and that a valid table and its inverse undo each other (R123).
-/

namespace Sys2Proof.Machine

/-! ## A pass of BLK through a table (R120, R124, R125) -/

/-- The bytes of a permuted Block, found by the 1-based positions of the table. -/
theorem getElem?_position_eq_permute {T : Table} (h : validTable T) (B : Block) (i : Fin 8) :
    B[T[i].toNat - 1]? = some (permute T B)[i] := by
  rw [getElem_permute_valid T h B i]
  exact Vector.getElem?_eq_getElem (sourceOffset T h i).isLt

theorem permuteBlk_of_ready {s : State} (T : Table) (h : s.ready = true) :
    permuteBlk T s = .next (afterOk 0 { s with blk := permute T s.blk }) :=
  (whenReady_eq s _).trans (congrArg _ (afterWhenReady_of_ready h _))

theorem permuteBlk_of_not_ready {s : State} (T : Table) (h : s.ready = false) :
    permuteBlk T s = .next (afterError .notReady s) :=
  (whenReady_eq s (afterOk 0 { s with blk := permute T s.blk })).trans (congrArg _ (afterWhenReady_of_not_ready h _))

/-- A pass through any table is refused while `READY` = 0. -/
theorem permuteBlk_refuses {s : State} (T : Table) (h : s.ready = false) :
    ∃ t, permuteBlk T s = .next t ∧ failsWith s t 3 0 :=
  ⟨_, permuteBlk_of_not_ready T h, failsWith_afterError .notReady s⟩

/-- A pass through a valid table gathers BLK and changes nothing else but the response. -/
theorem permuteBlk_gathers {s : State} {T : Table} (hready : s.ready = true) (hT : validTable T) :
    ∃ t, permuteBlk T s = .next t ∧ (∀ i : Fin 8, s.blk[T[i].toNat - 1]? = some t.blk[i]) ∧ sameBytes s t ∧
      t = { s with blk := t.blk, resp := some ⟨0, 0⟩ } :=
  ⟨_, permuteBlk_of_ready T hready, getElem?_position_eq_permute hT s.blk, sameBytes_of_memory rfl rfl rfl, rfl⟩

/-- Settles O24: `PERMIP` and `PERMFP` are the pass of BLK through IP and through FP. -/
theorem permutationsGatherThroughTheTables : Obligations.PermutationsGatherThroughTheTables :=
  ⟨rfl, rfl, fun s h => ⟨permuteBlk_refuses s.ip h, permuteBlk_refuses s.fp h⟩,
    fun _ h => ⟨permuteBlk_gathers h, permuteBlk_gathers h⟩⟩

/-! ## The inverse law (R123) -/

/-- A Block or a table is determined by its eight elements. -/
theorem ext_offsets {α : Type} {v w : Vector α 8} (h : ∀ i : Fin 8, v[i] = w[i]) : v = w :=
  Vector.ext fun i hi => h ⟨i, hi⟩

/-- Permuting with the inverse table puts byte `i` at the offset that entry `i` names. -/
theorem getElem_permute_invertTable (T : Table) (h : validTable T) (B : Block) (i : Fin 8) :
    (permute (invertTable T h) B)[sourceOffset T h i] = B[i] := by
  rw [getElem_permute_valid _ (validTable_invertTable T h)]
  exact congrArg (fun k : Fin 8 => B[k]) (sourceOffset_invertTable T h i)

/-- Permuting with the inverse table undoes the table. -/
theorem permute_invertTable_permute (T : Table) (h : validTable T) (B : Block) :
    permute (invertTable T h) (permute T B) = B := by
  refine ext_offsets fun p => ?_
  obtain ⟨i, rfl⟩ := sourceOffset_surjective T h p
  rw [getElem_permute_invertTable, getElem_permute_valid T h]

/-- Permuting with the table undoes the inverse table. -/
theorem permute_permute_invertTable (T : Table) (h : validTable T) (B : Block) :
    permute T (permute (invertTable T h) B) = B :=
  ext_offsets fun i => by rw [getElem_permute_valid T h, getElem_permute_invertTable]

/-- A valid table's entry is the offset it names, counted from 1. -/
theorem ofNat_sourceOffset_succ (T : Table) (h : validTable T) (i : Fin 8) :
    BitVec.ofNat 4 ((sourceOffset T h i).val + 1) = T[i] := by
  have hpos : 1 ≤ T[i].toNat ∧ T[i].toNat ≤ 8 := h.1 i
  have hsucc : (sourceOffset T h i).val + 1 = T[i].toNat := Nat.sub_add_cancel hpos.1
  rw [hsucc, BitVec.ofNat_toNat, BitVec.setWidth_eq]

/-- The inverse of the inverse: its entry `i` is the position of the offset that the inverse table sends to `i`. -/
theorem invertTable_invertTable (T : Table) (h : validTable T) (h' : validTable (invertTable T h)) :
    invertTable (invertTable T h) h' = T := by
  refine ext_offsets fun i => ?_
  have hentry := getElem_invertTable (invertTable T h) h' (sourceOffset T h i)
  simp only [sourceOffset_invertTable] at hentry
  exact hentry.trans (ofNat_sourceOffset_succ T h i)

/-- Settles O26: the offsets that the table and its inverse name undo each other. -/
theorem inverseTableUndoesTheTable : Obligations.InverseTableUndoesTheTable := fun T h =>
  ⟨fun B => ⟨permute_invertTable_permute T h B, permute_permute_invertTable T h B⟩,
    validTable_invertTable T h, invertTable_invertTable T h _⟩

end Sys2Proof.Machine

/-!
# The key schedule (42_key_schedule.md)

`RDRK` and the byte of a round key that it reads (R140, R145).
-/

namespace Sys2Proof.Machine

/-- The word of a command that selects a byte of a round key (format R, R80). -/
theorem opWord_or_roundKeyByte (op : BitVec 8) (rnd : BitVec 4) (idx : BitVec 3) :
    opWord op ||| fieldAt rnd 16 ||| fieldAt idx 8 =
      opWord op + rnd.setWidth 32 * 0x10000 + idx.setWidth 32 * 0x100 := by
  rw [opWord_or_fieldAt_or_fieldAt op rnd idx (by decide) (by decide), fieldAt_eq_mul rnd, fieldAt_eq_mul idx]
  rfl

/-- Both operand fields are in range, so the byte they select exists. -/
theorem getElem?_roundKeyByte (rk : RoundKeys) (rnd : BitVec 4) (idx : BitVec 3) :
    (rk[rnd.toNat]?.bind fun K => K[idx.toNat]?) = some (atOffset (roundKey rk rnd) idx) := by
  rw [Vector.getElem?_eq_getElem rnd.isLt, Option.bind_some, Vector.getElem?_eq_getElem idx.isLt]
  rfl

/-- R140, at the byte that two operand fields select. -/
theorem atOffset_roundKey_schedule (K : List Byte) (h : 0 < K.length) (rnd : BitVec 4) (idx : BitVec 3) :
    atOffset (roundKey (schedule K h) rnd) idx = K[(rnd.toNat + idx.toNat) % K.length]'(Nat.mod_lt _ h) :=
  getElem_schedule K h rnd.toNat idx.toNat rnd.isLt idx.isLt

/-- With the construction of the configuration held, the round-key byte is the scheduled byte of the key. -/
theorem getElem?_key_of_constructed {s : State} (h : constructed s) (rnd : BitVec 4) (idx : BitVec 3) :
    s.key[(rnd.toNat + idx.toNat) % s.klen]? = some (atOffset (roundKey s.rk rnd) idx) := by
  obtain ⟨_, _, hkey, hrk, _, _⟩ := h
  rw [hrk, atOffset_roundKey_schedule]
  exact List.getElem?_eq_getElem (Nat.mod_lt _ hkey)

theorem exec_rdrk_of_ready {s : State} (rnd : BitVec 4) (idx : BitVec 3) (h : s.ready = true) :
    exec (.rdrk rnd idx) s = .next (afterOk ((atOffset (roundKey s.rk rnd) idx).setWidth 32) s) :=
  (exec_rdrk rnd idx s).trans (congrArg _ (afterWhenReady_of_ready h _))

theorem exec_rdrk_of_not_ready {s : State} (rnd : BitVec 4) (idx : BitVec 3) (h : s.ready = false) :
    exec (.rdrk rnd idx) s = .next (afterError .notReady s) :=
  (exec_rdrk rnd idx s).trans (congrArg _ (afterWhenReady_of_not_ready h _))

/-- Settles O28: `READY` decides between the error and the selected byte, which the construction took from the key. -/
theorem rdrkReturnsTheScheduledKeyByte : Obligations.RdrkReturnsTheScheduledKeyByte := by
  refine ⟨opWord_or_roundKeyByte 0x28, fun s rnd idx hready => ?_, fun s rnd idx hready => ?_⟩
  · exact ⟨_, exec_rdrk_of_not_ready rnd idx hready, failsWith_afterError .notReady s⟩
  · exact ⟨_, getElem?_roundKeyByte s.rk rnd idx, fun hc => getElem?_key_of_constructed hc rnd idx,
      exec_rdrk_of_ready rnd idx hready⟩

end Sys2Proof.Machine

/-!
# The round function (43_round_function.md)

What `ROUND` does with BLK (R160, R162), and that a round undoes itself (R161).
-/

namespace Sys2Proof.Machine

/-- The word of a command that selects a round key and no byte of it (format K). -/
theorem opWord_or_roundNumber (op : BitVec 8) (rnd : BitVec 4) :
    opWord op ||| fieldAt rnd 16 = opWord op + rnd.setWidth 32 * 0x10000 := by
  rw [opWord_or_fieldAt op rnd (by decide), fieldAt_eq_mul rnd]
  rfl

/-- Every round number selects a round key, and the round XORs it into the Block at each offset (R160). -/
theorem getElem?_roundKey_eq_roundBlock (B : Block) (rk : RoundKeys) (rnd : BitVec 4) (j : Fin 8) :
    rk[rnd.toNat]?.map (fun K => B[j] ^^^ K[j]) = some (roundBlock B (roundKey rk rnd))[j] := by
  rw [Vector.getElem?_eq_getElem rnd.isLt, Option.map_some]
  exact congrArg some (getElem_xorBlock B (roundKey rk rnd) j j.isLt).symm

/-- A round with the same key twice is no change (R161). -/
theorem roundBlock_roundBlock_self (B K : Block) : roundBlock (roundBlock B K) K = B :=
  xorBlock_self_right B K

theorem exec_round_of_ready {s : State} (rnd : BitVec 4) (h : s.ready = true) :
    exec (.round rnd) s = .next (afterOk 0 { s with blk := roundBlock s.blk (roundKey s.rk rnd) }) :=
  (exec_round rnd s).trans (congrArg _ (afterWhenReady_of_ready h _))

theorem exec_round_of_not_ready {s : State} (rnd : BitVec 4) (h : s.ready = false) :
    exec (.round rnd) s = .next (afterError .notReady s) :=
  (exec_round rnd s).trans (congrArg _ (afterWhenReady_of_not_ready h _))

/-- Settles O30: `READY` decides between the error and the XOR with the round key that the operand selects. -/
theorem roundXorsTheChosenKey : Obligations.RoundXorsTheChosenKey := by
  refine ⟨opWord_or_roundNumber 0x30, fun s rnd hready => ?_, fun s rnd hready => ?_⟩
  · exact ⟨_, exec_round_of_not_ready rnd hready, failsWith_afterError .notReady s⟩
  · exact ⟨_, exec_round_of_ready rnd hready, getElem?_roundKey_eq_roundBlock s.blk s.rk rnd,
      sameBytes_of_memory rfl rfl rfl, rfl⟩

/-- Settles O31: the first `ROUND` leaves `READY` and the round keys alone, so the second XORs the same key again. -/
theorem roundTwiceRestoresTheBlock : Obligations.RoundTwiceRestoresTheBlock := by
  refine ⟨roundBlock_roundBlock_self, fun s rnd hready => ?_⟩
  have hfirst := exec_round_of_ready rnd hready
  exact ⟨_, _, hfirst, exec_round_of_ready rnd hready, roundBlock_roundBlock_self s.blk (roundKey s.rk rnd)⟩

end Sys2Proof.Machine

/-!
# The block engine (44_block_engine.md)

What `LDBLK` and `RDBLK` do with a byte of BLK (R179, R180), and the transform of `XFORM` and `RUN`: stage by stage (R170 to
R173, R181), and without a use for the direction flag under `FORWARD` (R174).
-/

namespace Sys2Proof.Machine

/-! ## One byte of BLK (R179, R180) -/

/-- The word of a command that selects an offset and no byte (format I). -/
theorem opWord_or_offset (op : BitVec 8) (idx : BitVec 3) :
    opWord op ||| fieldAt idx 8 = opWord op + idx.setWidth 32 * 0x100 := by
  rw [opWord_or_fieldAt op idx (by decide), fieldAt_eq_mul idx]
  rfl

/-- The word of a command that writes a byte at an offset (format X). -/
theorem opWord_or_offset_or_byte (op : BitVec 8) (idx : BitVec 3) (d : Byte) :
    opWord op ||| fieldAt idx 8 ||| fieldAt d 0 = opWord op + idx.setWidth 32 * 0x100 + d.setWidth 32 := by
  rw [opWord_or_fieldAt_or_fieldAt op idx d (by decide) (by decide), fieldAt_eq_mul idx, fieldAt_zero]
  rfl

/-- An offset operand is in range, so the element it selects exists. -/
theorem getElem?_atOffset {α : Type} (v : Vector α 8) (idx : BitVec 3) : v[idx.toNat]? = some (atOffset v idx) :=
  Vector.getElem?_eq_getElem idx.isLt

/-- Settles O32: `setOffset` writes one byte of BLK and `atOffset` reads one; neither command asks for `READY`. -/
theorem blockBytesAreWrittenAndRead : Obligations.BlockBytesAreWrittenAndRead :=
  ⟨opWord_or_offset_or_byte 0x40, opWord_or_offset 0x41, fun s idx =>
    ⟨fun d => ⟨_, exec_ldblk idx d s, getElem_setOffset s.blk idx d, sameBytes_of_memory rfl rfl rfl, rfl⟩,
      _, getElem?_atOffset s.blk idx, exec_rdblk idx s⟩⟩

/-! ## The transform, stage by stage (R170 to R173, R181) -/

/-- The word of a command with a direction flag (format D). -/
theorem opWord_or_flag (op : BitVec 8) (dir : BitVec 1) : opWord op ||| fieldAt dir 0 = opWord op + dir.setWidth 32 := by
  rw [opWord_or_fieldAt op dir (by decide), fieldAt_zero]

/-- The block after the first `n` of sixteen rounds, their keys taken in the order of `RK`. -/
def blockAfterRounds (RK : RoundKeys) (B : Block) (n : Nat) : Block := (RK.toList.take n).foldl roundBlock B

theorem blockAfterRounds_zero (RK : RoundKeys) (B : Block) : blockAfterRounds RK B 0 = B := rfl

theorem blockAfterRounds_all (RK : RoundKeys) (B : Block) :
    blockAfterRounds RK B 16 = RK.toList.foldl roundBlock B :=
  congrArg (List.foldl roundBlock B) (List.take_of_length_le RK.length_toList.le)

/-- Each round takes the block that the rounds before it left. -/
theorem blockAfterRounds_succ (RK : RoundKeys) (B : Block) (i : Fin 16) :
    blockAfterRounds RK B (i.val + 1) = roundBlock (blockAfterRounds RK B i.val) RK[i.val] := by
  have hi : i.val < RK.toList.length := by simp
  unfold blockAfterRounds
  rw [← List.take_append_getElem hi, List.foldl_append, Vector.getElem_toList]
  rfl

theorem getElem_blockAfterRounds_succ (RK : RoundKeys) (B : Block) (i : Fin 16) (j : Fin 8) :
    (blockAfterRounds RK B (i.val + 1))[j] = (blockAfterRounds RK B i.val)[j] ^^^ RK[i.val][j] := by
  rw [blockAfterRounds_succ]
  exact getElem_xorBlock (blockAfterRounds RK B i.val) RK[i.val] j j.isLt

/-- The round keys in reverse are those of `engine_inv`, 15 down to 0. -/
theorem getElem_blockAfterRounds_reverse_succ (RK : RoundKeys) (B : Block) (i : Fin 16) (j : Fin 8) :
    (blockAfterRounds RK.reverse B (i.val + 1))[j] =
      (blockAfterRounds RK.reverse B i.val)[j] ^^^ RK[15 - i.val][j] := by
  have hkey : RK.reverse[i.val] = RK[15 - i.val] := Vector.getElem_reverse i.isLt
  rw [getElem_blockAfterRounds_succ, hkey]

/-- `engine_fwd` as its three stages. -/
theorem engineFwd_eq_stages (B : Block) (IP FP : Table) (RK : RoundKeys) :
    engineFwd B IP FP RK = permute FP (blockAfterRounds RK (permute IP B) 16) := by
  rw [blockAfterRounds_all]
  rfl

/-- `engine_inv` as its three stages. -/
theorem engineInv_eq_stages (C : Block) (IPI FPI : Table) (RK : RoundKeys) :
    engineInv C IPI FPI RK = permute IPI (blockAfterRounds RK.reverse (permute FPI C) 16) := by
  rw [blockAfterRounds_all, Vector.toList_reverse]
  rfl

theorem select_of_inverse {s : State} {dir : BitVec 1} (h : s.params.decMode = .inverse ∧ dir = 1) (B : Block) :
    select s dir B = engineInv B s.ipi s.fpi s.rk := if_pos h

theorem select_of_not_inverse {s : State} {dir : BitVec 1} (h : ¬ (s.params.decMode = .inverse ∧ dir = 1)) (B : Block) :
    select s dir B = engineFwd B s.ip s.fp s.rk := if_neg h

theorem exec_xform_of_ready {s : State} (dir : BitVec 1) (h : s.ready = true) :
    exec (.xform dir) s = .next (afterOk 0 { s with blk := select s dir s.blk }) :=
  (exec_xform dir s).trans (congrArg _ (afterWhenReady_of_ready h _))

theorem exec_xform_of_not_ready {s : State} (dir : BitVec 1) (h : s.ready = false) :
    exec (.xform dir) s = .next (afterError .notReady s) :=
  (exec_xform dir s).trans (congrArg _ (afterWhenReady_of_not_ready h _))

/-- Settles O33: `READY` decides between the error and the selected transform, whose stages are the blocks after its
rounds, the keys in reverse for the inverse. -/
theorem xformAppliesTheSelectedTransform : Obligations.XformAppliesTheSelectedTransform := by
  refine ⟨opWord_or_flag 0x42, fun s dir hready => ?_, fun s dir hready => ?_⟩
  · exact ⟨_, exec_xform_of_not_ready dir hready, failsWith_afterError .notReady s⟩
  · refine ⟨_, exec_xform_of_ready dir hready, sameBytes_of_memory rfl rfl rfl, rfl, ?_⟩
    by_cases hinv : s.params.decMode = .inverse ∧ dir = 1
    · refine ⟨blockAfterRounds s.rk.reverse (permute s.fpi s.blk), ?_, ?_⟩
      · simpa only [if_pos hinv] using getElem_blockAfterRounds_reverse_succ s.rk (permute s.fpi s.blk)
      · rw [if_pos hinv]
        exact ⟨blockAfterRounds_zero _ _, (select_of_inverse hinv s.blk).trans (engineInv_eq_stages _ _ _ _)⟩
    · refine ⟨blockAfterRounds s.rk (permute s.ip s.blk), ?_, ?_⟩
      · simpa only [if_neg hinv] using getElem_blockAfterRounds_succ s.rk (permute s.ip s.blk)
      · rw [if_neg hinv]
        exact ⟨blockAfterRounds_zero _ _, (select_of_not_inverse hinv s.blk).trans (engineFwd_eq_stages _ _ _ _)⟩

/-! ## The direction flag under `FORWARD` (R174) -/

theorem select_of_forward {s : State} (h : s.params.decMode = .forward) (dir : BitVec 1) (B : Block) :
    select s dir B = engineFwd B s.ip s.fp s.rk :=
  select_of_not_inverse (by simp [h]) B

/-- `RUN` depends on the direction flag through the selected transform alone. -/
theorem runBlocks_congr {s : State} {dir dir' : BitVec 1} (h : ∀ B, select s dir B = select s dir' B) (n : Nat) :
    runBlocks s dir n = runBlocks s dir' n := by
  induction n with
  | zero => rfl
  | succ n ih => rw [runBlocks, runBlocks, ih, h]

/-- Settles O34: both flags select `engine_fwd`. -/
theorem forwardModeIgnoresTheFlag : Obligations.ForwardModeIgnoresTheFlag := by
  intro s dir dir' hfwd
  have hsel (B : Block) : select s dir B = select s dir' B :=
    (select_of_forward hfwd dir B).trans (select_of_forward hfwd dir' B).symm
  exact ⟨by rw [exec_xform, exec_xform, hsel], by rw [exec_run, exec_run, runBlocks_congr hsel]⟩

end Sys2Proof.Machine

/-!
# The file codec (45_file_codec.md)

What `WRBUF`, `SETLEN`, `RUN` and `RDOBUF` do with the buffers and their lengths (R192 to R196), and the codec as a map
over the blocks of a buffer (R190, R191, R198).
-/

namespace Sys2Proof.Machine

/-! ## The words (R76, R77) -/

/-- The word of a command with an address or a length and no byte. -/
theorem opWord_or_half (op : BitVec 8) (v : Half) : opWord op ||| fieldAt v 8 = opWord op + v.setWidth 32 * 0x100 := by
  rw [opWord_or_fieldAt op v (by decide), fieldAt_eq_mul v]
  rfl

/-- The word of a command with an address and a byte. -/
theorem opWord_or_half_or_byte (op : BitVec 8) (v : Half) (d : Byte) :
    opWord op ||| fieldAt v 8 ||| fieldAt d 0 = opWord op + v.setWidth 32 * 0x100 + d.setWidth 32 := by
  rw [opWord_or_fieldAt_or_fieldAt op v d (by decide) (by decide), fieldAt_eq_mul v, fieldAt_zero]
  rfl

/-! ## The buffers after a write -/

@[simp] theorem byteAt_afterOk (data : Word) (s : State) (sp : Space) (a : Nat) :
    byteAt (afterOk data s) sp a = byteAt s sp a :=
  byteAt_congr sp a (by cases sp <;> rfl) rfl

/-- A byte of IBUF after one byte was written. -/
theorem byteAt_write_ibuf (s : State) (a x : Nat) (d : Byte) :
    byteAt { s with ibuf := s.ibuf.write a d } .ibuf x = if x = a then d else byteAt s .ibuf x := by
  unfold byteAt
  by_cases h : x = a <;> simp [h]

/-- A byte of OBUF after `n` blocks of a `RUN`: transformed below `8 * n`, as it was above. -/
theorem byteAt_runBlocks_obuf (s : State) (dir : BitVec 1) (n x : Nat) (olen : Half) :
    byteAt { s with obuf := runBlocks s dir n, olen := olen } .obuf x =
      if x < 8 * n then (select s dir (blockAt s .ibuf (x / 8)))[x % 8]'(Nat.mod_lt _ (by decide))
      else byteAt s .obuf x := by
  unfold byteAt
  by_cases h : x < 8 * n <;> simp [h, lookup_runBlocks]

/-! ## `WRBUF`, `SETLEN`, `RDOBUF` (R192, R193, R195) -/

theorem exec_wrbuf_below {s : State} {addr : BitVec 16} (d : BitVec 8) (h : ¬ s.params.bufMax ≤ addr.toNat) :
    exec (.wrbuf addr d) s = .next (afterOk 0 { s with ibuf := s.ibuf.write addr.toNat d }) :=
  (exec_wrbuf addr d s).trans (congrArg _ (if_pos (Nat.not_le.mp h)))

theorem exec_wrbuf_above {s : State} {addr : BitVec 16} (d : BitVec 8) (h : s.params.bufMax ≤ addr.toNat) :
    exec (.wrbuf addr d) s = .next (afterError .bufferAddress s) :=
  (exec_wrbuf addr d s).trans (congrArg _ (if_neg (Nat.not_lt.mpr h)))

/-- Settles O40: the two cases of the address, outside IBUF or inside, where one byte is written. -/
theorem wrbufStoresOneByte : Obligations.WrbufStoresOneByte := by
  refine ⟨opWord_or_half_or_byte 0x50, fun s addr d => ?_⟩
  by_cases habove : s.params.bufMax ≤ addr.toNat
  · refine ⟨_, exec_wrbuf_above d habove, ?_⟩
    rw [if_pos habove]
    exact failsWith_afterError .bufferAddress s
  · refine ⟨_, exec_wrbuf_below d habove, ?_⟩
    rw [if_neg habove]
    have hread (x : Nat) := (byteAt_afterOk 0 _ .ibuf x).trans (byteAt_write_ibuf s addr.toNat x d)
    exact ⟨(hread _).trans (if_pos rfl), fun a ha => (hread a).trans (if_neg ha),
      fun a => byteAt_congr .obuf a rfl rfl, rfl⟩

theorem exec_setlen_fits {s : State} {n : BitVec 16} (h : ¬ s.params.bufMax < n.toNat) :
    exec (.setlen n) s = .next (afterOk 0 { s with len := n }) :=
  (exec_setlen n s).trans (congrArg _ (if_pos (Nat.not_lt.mp h)))

theorem exec_setlen_above {s : State} {n : BitVec 16} (h : s.params.bufMax < n.toNat) :
    exec (.setlen n) s = .next (afterError .lengthAboveCapacity s) :=
  (exec_setlen n s).trans (congrArg _ (if_neg (Nat.not_le.mpr h)))

/-- Settles O41: the two cases of the length, above `BUF_MAX` or stored as it is. -/
theorem setlenSetsTheLength : Obligations.SetlenSetsTheLength := by
  refine ⟨opWord_or_half 0x51, fun s n => ?_⟩
  by_cases habove : s.params.bufMax < n.toNat
  · refine ⟨_, exec_setlen_above habove, ?_⟩
    rw [if_pos habove]
    exact failsWith_afterError .lengthAboveCapacity s
  · refine ⟨_, exec_setlen_fits habove, ?_⟩
    rw [if_neg habove]
    exact ⟨sameBytes_of_memory rfl rfl rfl, rfl⟩

theorem exec_rdobuf_valid {s : State} {addr : BitVec 16} (h : ¬ s.olen.toNat ≤ addr.toNat) :
    exec (.rdobuf addr) s = .next (afterOk ((byteAt s .obuf addr.toNat).setWidth 32) s) :=
  (exec_rdobuf addr s).trans (congrArg _ (if_pos (Nat.not_le.mp h)))

theorem exec_rdobuf_above {s : State} {addr : BitVec 16} (h : s.olen.toNat ≤ addr.toNat) :
    exec (.rdobuf addr) s = .next (afterError .bufferAddress s) :=
  (exec_rdobuf addr s).trans (congrArg _ (if_neg (Nat.not_lt.mpr h)))

/-- Settles O48: the two cases of the address, outside the valid output or inside, where the byte is the response. -/
theorem rdobufReadsValidOutput : Obligations.RdobufReadsValidOutput := by
  refine ⟨opWord_or_half 0x53, fun s addr => ?_⟩
  by_cases habove : s.olen.toNat ≤ addr.toNat
  · refine ⟨_, exec_rdobuf_above habove, ?_⟩
    rw [if_pos habove]
    exact failsWith_afterError .bufferAddress s
  · refine ⟨_, exec_rdobuf_valid habove, ?_⟩
    rw [if_neg habove]
    rfl

/-! ## `RUN` (R194, R196) -/

theorem exec_run_of_not_ready {s : State} (dir : BitVec 1) (h : s.ready = false) :
    exec (.run dir) s = .next (afterError .notReady s) :=
  (exec_run dir s).trans (congrArg _ (afterWhenReady_of_not_ready h _))

theorem exec_run_of_misaligned {s : State} (dir : BitVec 1) (h : s.ready = true) (hlen : s.len.toNat % 8 ≠ 0) :
    exec (.run dir) s = .next (afterError (.misaligned (BitVec.ofNat 8 (s.len.toNat % 8))) s) := by
  rw [exec_run, afterWhenReady_of_ready h, if_neg hlen]

theorem exec_run_of_aligned {s : State} (dir : BitVec 1) (h : s.ready = true) (hlen : s.len.toNat % 8 = 0) :
    exec (.run dir) s = .next (afterOk (s.len.setWidth 32)
      { s with obuf := runBlocks s dir (s.len.toNat / 8), olen := s.len }) := by
  rw [exec_run, afterWhenReady_of_ready h, if_pos hlen]

/-- Offset `j` of block `k` after a `RUN` of more than `k` blocks. -/
theorem byteAt_runBlocks_offset (s : State) (dir : BitVec 1) {n k : Nat} (hk : k < n) (j : Fin 8) (olen : Half) :
    byteAt { s with obuf := runBlocks s dir n, olen := olen } .obuf (8 * k + j.val) =
      (select s dir (blockAt s .ibuf k))[j] := by
  have hlt : 8 * k + j.val < 8 * n := by omega
  have hblock : (8 * k + j.val) / 8 = k := by omega
  have hoffset : (8 * k + j.val) % 8 = j.val := by omega
  rw [byteAt_runBlocks_obuf, if_pos hlt]
  simp only [hblock, hoffset, Fin.getElem_fin]

/-- Settles O42: readiness, then alignment, then the bytes of OBUF below and above the length. -/
theorem runTransformsEveryBlock : Obligations.RunTransformsEveryBlock := by
  refine ⟨opWord_or_flag 0x52, fun s dir => ⟨fun hready => ?_, fun hready hlen => ?_⟩, fun s dir hready hlen => ?_⟩
  · exact ⟨_, exec_run_of_not_ready dir hready, failsWith_afterError .notReady s⟩
  · exact ⟨_, exec_run_of_misaligned dir hready hlen, failsWith_afterError (.misaligned _) s⟩
  · refine ⟨_, exec_run_of_aligned dir hready hlen, fun k hk j => ?_, fun a ha => ?_,
      fun a => byteAt_congr .ibuf a rfl rfl, rfl⟩
    · exact (byteAt_afterOk _ _ .obuf _).trans (byteAt_runBlocks_offset s dir hk j s.len)
    · have habove : ¬ a < 8 * (s.len.toNat / 8) := by omega
      rw [byteAt_afterOk, byteAt_runBlocks_obuf, if_neg habove]

/-! ## The codec as a map over blocks (R190, R191, R198) -/

/-- The bytes of a sequence of Blocks, one after the other. -/
def blockBytes (Bs : List Block) : List Byte := Bs.flatMap Vector.toList

theorem blockBytes_cons (B : Block) (Bs : List Block) : blockBytes (B :: Bs) = B.toList ++ blockBytes Bs :=
  List.flatMap_cons

theorem blockBytes_append (Bs Cs : List Block) : blockBytes (Bs ++ Cs) = blockBytes Bs ++ blockBytes Cs :=
  List.flatMap_append

theorem length_blockBytes (Bs : List Block) : (blockBytes Bs).length = 8 * Bs.length := by
  induction Bs with
  | nil => rfl
  | cons B Bs ih =>
    rw [blockBytes_cons, List.length_append, ih, Vector.length_toList, List.length_cons]
    omega

/-- Offset `j` of Block `k` is byte `8 * k + j`. -/
theorem getElem?_blockBytes (Bs : List Block) (k : Nat) (j : Fin 8) :
    (blockBytes Bs)[8 * k + j.val]? = Bs[k]?.map (·[j]) := by
  induction Bs generalizing k with
  | nil => rfl
  | cons B Bs ih =>
    rw [blockBytes_cons]
    cases k with
    | zero => simp [List.getElem?_append_left]
    | succ k =>
      have hindex : 8 * (k + 1) + j.val - B.toList.length = 8 * k + j.val := by
        rw [Vector.length_toList]
        omega
      rw [List.getElem?_append_right (by rw [Vector.length_toList]; omega), hindex, ih, List.getElem?_cons_succ]

/-- The codec of a buffer that begins with a Block. -/
theorem codec_toList_append (f : Block → Block) (B : Block) (rest : List Byte) :
    codec f (B.toList ++ rest) = (codec f rest).map ((f B).toList ++ ·) := by
  obtain ⟨⟨bytes⟩, hsize⟩ := B
  match bytes, hsize with
  | [_, _, _, _, _, _, _, _], _ => rfl

/-- The codec of whole Blocks is `f` of each. -/
theorem codec_blockBytes (f : Block → Block) (Bs : List Block) :
    codec f (blockBytes Bs) = some (blockBytes (Bs.map f)) := by
  induction Bs with
  | nil => rfl
  | cons B Bs ih => rw [blockBytes_cons, codec_toList_append, ih, List.map_cons, blockBytes_cons, Option.map_some]

/-- A buffer of whole blocks is the bytes of its Blocks. -/
theorem exists_blockBytes {buf : List Byte} (h : 8 ∣ buf.length) : ∃ Bs, buf = blockBytes Bs := by
  obtain ⟨n, hn⟩ := h
  induction n generalizing buf with
  | zero => exact ⟨[], List.length_eq_zero_iff.mp hn⟩
  | succ n ih =>
    obtain ⟨Bs, hrest⟩ := ih (buf := buf.drop 8) (by rw [List.length_drop]; omega)
    have hfirst : (buf.take 8).length = 8 := List.length_take_of_le (by omega)
    refine ⟨⟨(buf.take 8).toArray, hfirst⟩ :: Bs, ?_⟩
    rw [blockBytes_cons, ← hrest]
    exact (List.take_append_drop 8 buf).symm

/-- The codec has a value for whole blocks only. -/
theorem length_mod_of_codec_eq_some {f : Block → Block} {buf out : List Byte} (h : codec f buf = some out) :
    buf.length % 8 = 0 := by
  induction buf using codec.induct generalizing out with
  | case1 => rfl
  | case2 b0 b1 b2 b3 b4 b5 b6 b7 rest ih =>
    obtain ⟨restOut, hrest, -⟩ := Option.map_eq_some_iff.mp h
    have hmod := ih hrest
    simp only [List.length_cons]
    omega
  | case3 buf hnil hcons =>
    rw [codec] at h
    · cases h
    · exact hnil
    · exact hcons

/-- What the codec is: it has a value exactly on the bytes of Blocks, and the value is the bytes of `f` of each. -/
theorem codec_eq_some_iff {f : Block → Block} {buf out : List Byte} :
    codec f buf = some out ↔ ∃ Bs, buf = blockBytes Bs ∧ out = blockBytes (Bs.map f) := by
  constructor
  · intro h
    obtain ⟨Bs, rfl⟩ := exists_blockBytes (Nat.dvd_of_mod_eq_zero (length_mod_of_codec_eq_some h))
    exact ⟨Bs, rfl, Option.some.inj (h.symm.trans (codec_blockBytes f Bs))⟩
  · rintro ⟨Bs, rfl, rfl⟩
    exact codec_blockBytes f Bs

theorem codec_isSome_iff (f : Block → Block) (buf : List Byte) : (codec f buf).isSome = true ↔ buf.length % 8 = 0 := by
  constructor
  · intro h
    obtain ⟨out, hout⟩ := Option.isSome_iff_exists.mp h
    exact length_mod_of_codec_eq_some hout
  · intro h
    obtain ⟨Bs, rfl⟩ := exists_blockBytes (Nat.dvd_of_mod_eq_zero h)
    rw [codec_blockBytes]
    rfl

/-- Settles O44: the buffer is the bytes of Blocks, over which the codec maps `f`. -/
theorem codecNeedsWholeBlocks : Obligations.CodecNeedsWholeBlocks := by
  refine fun f buf => ⟨codec_isSome_iff f buf, fun out hout => ?_, fun out buf' out' hout hout' => ?_⟩
  · obtain ⟨Bs, rfl, rfl⟩ := codec_eq_some_iff.mp hout
    refine ⟨by rw [length_blockBytes, length_blockBytes, List.length_map], fun k hk B hB j => ?_⟩
    have hk' : k < Bs.length := by
      rw [length_blockBytes] at hk
      omega
    simp only [getElem?_blockBytes, List.getElem?_eq_getElem hk', Option.map_some, Option.some.injEq] at hB
    rw [getElem?_blockBytes, List.getElem?_map, List.getElem?_eq_getElem hk', ext_offsets hB]
    rfl
  · obtain ⟨Bs, rfl, rfl⟩ := codec_eq_some_iff.mp hout
    obtain ⟨Cs, rfl, rfl⟩ := codec_eq_some_iff.mp hout'
    exact codec_eq_some_iff.mpr ⟨Bs ++ Cs, (blockBytes_append Bs Cs).symm, by rw [List.map_append, blockBytes_append]⟩

end Sys2Proof.Machine

/-!
# Exceptions (60_exceptions.md)

That the commands which need the construction refuse while `READY` = 0 (R214), and that a failing command leaves the state
before it plus the latch (R216, R220).
-/

namespace Sys2Proof.Machine

/-! ## `NotReadyError` (R214) -/

/-- While `READY` = 0 the whole effect of a command that needs the construction is `NotReadyError`. -/
theorem exec_of_needsReady_of_not_ready {i : Instr} {s : State} (hi : needsReady i = true) (h : s.ready = false) :
    exec i s = .next (afterError .notReady s) := by
  cases i with
  | permip => exact permuteBlk_of_not_ready s.ip h
  | permfp => exact permuteBlk_of_not_ready s.fp h
  | permipi => exact permuteBlk_of_not_ready s.ipi h
  | permfpi => exact permuteBlk_of_not_ready s.fpi h
  | rdrk rnd idx => exact exec_rdrk_of_not_ready rnd idx h
  | round rnd => exact exec_round_of_not_ready rnd h
  | xform dir => exact exec_xform_of_not_ready dir h
  | run dir => exact exec_run_of_not_ready dir h
  | _ => simp [needsReady] at hi

/-- Settles O49: the answer is the error's, which writes no memory. -/
theorem processingNeedsTheConstruction : Obligations.ProcessingNeedsTheConstruction := fun _ s hi h =>
  ⟨_, exec_of_needsReady_of_not_ready hi h, failsWith_afterError .notReady s, byteAt_afterError .notReady s⟩

/-! ## Failing commands (R216, R220) -/

/-- A command that answers a code other than 0 raised an error of R211 in the state before it. -/
theorem eq_afterError_of_exec_of_code_ne_zero {i : Instr} {s t : State} {r : Response} (h : exec i s = .next t)
    (hresp : t.resp = some r) (hcode : r.code ≠ 0) : ∃ e, t = afterError e s := by
  obtain ⟨u, hu, ⟨e, rfl⟩ | ⟨d, v, rfl⟩⟩ := exec_answers i s
  · cases h.symm.trans hu
    exact ⟨e, rfl⟩
  · cases h.symm.trans hu
    cases hresp
    exact absurd rfl hcode

/-- The sub-cause is the low byte of the response's data, whose other bits are 0 (R211). -/
theorem setWidth_setWidth_errorInfo (e : CommandError) : ((errorInfo e).setWidth 32).setWidth 8 = errorInfo e := by
  rw [BitVec.setWidth_setWidth_of_le _ (by decide), BitVec.setWidth_eq]

/-- Settles O50: the error raised, of which the response carries the code and the sub-cause, writes the latch and the
response alone. -/
theorem failuresArePreciseAndLatchedOnce : Obligations.FailuresArePreciseAndLatchedOnce := by
  intro i s t r h hresp hcode
  obtain ⟨e, rfl⟩ := eq_afterError_of_exec_of_code_ne_zero h hresp hcode
  cases hresp
  simpa only [setWidth_setWidth_errorInfo] using failsWith_afterError e s

end Sys2Proof.Machine

/-!
# After reset (70_reset_and_hazards.md)

That the engine comes out of reset unconfigured: `INIT` stops at its first check and the processing commands refuse (R241).
-/

namespace Sys2Proof.Machine

/-- An entry of 0 names no position, so the table of zeros is invalid (R121 (a)). -/
theorem not_validTable_zero : ¬ validTable (Vector.replicate 8 0) := fun ⟨hrange, _⟩ =>
  absurd (hrange 0) (by decide)

/-- `INIT` checks IP first (R108). -/
theorem exec_init_of_not_validTable_ip {s : State} (h : ¬ validTable s.ip) :
    exec .init s = .next (afterError .ipNotBijective s) := by
  obtain ⟨hip, _⟩ | ⟨_, hexec⟩ | ⟨hip, _⟩ | ⟨hip, _⟩ := exec_init_cases s
  · exact absurd hip h
  · exact hexec
  · exact absurd hip h
  · exact absurd hip h

/-- Reset leaves every entry of both tables and every byte of BLK at 0 (R46). -/
theorem getElem_resetWith (p : Params) (i : Fin 8) :
    (State.resetWith p).ip[i] = 0 ∧ (State.resetWith p).fp[i] = 0 ∧ (State.resetWith p).blk[i] = 0 :=
  ⟨Vector.getElem_replicate i.isLt, Vector.getElem_replicate i.isLt, Vector.getElem_replicate i.isLt⟩

/-- After reset `INIT` raises sub-cause 1 and leaves `READY` = 0. -/
theorem exec_init_resetWith (p : Params) :
    ∃ t, exec .init (State.resetWith p) = .next t ∧ t.resp = some ⟨1, 1⟩ ∧ t.ready = false :=
  ⟨_, exec_init_of_not_validTable_ip (s := State.resetWith p) not_validTable_zero, rfl,
    latchError_ready .ipNotBijective _⟩

/-- Settles O55: the zero tables stop `INIT` at its check of IP, and `READY` = 0 refuses every processing command. -/
theorem resetLeavesTheEngineUnconfigured : Obligations.ResetLeavesTheEngineUnconfigured :=
  ⟨rfl, fun p => ⟨rfl, rfl, rfl, rfl, rfl, rfl, getElem_resetWith p, exec_init_resetWith p,
    fun _ hi => ⟨_, exec_of_needsReady_of_not_ready hi rfl, rfl⟩⟩⟩

end Sys2Proof.Machine

/-!
# Decode and encode agree (30_encoding.md section 4)

Decoding the word of a command gives the command (R90), and each of the 2^32 words has one meaning (R84 to R86).
-/

namespace Sys2Proof.Machine

/-! ## A field of a word, put back in its place (R90) -/

/-- A field read from a word and moved back to its position is what the field's mask keeps of the word. -/
theorem fieldAt_extractLsb' (w : Word) (lo n : Nat) :
    fieldAt (w.extractLsb' lo n) lo = w &&& fieldAt (BitVec.allOnes n) lo := by
  ext i hi
  rw [BitVec.getElem_and, getElem_fieldAt, getElem_fieldAt, BitVec.getLsbD_extractLsb', BitVec.getLsbD_allOnes]
  by_cases hlo : lo ≤ i
  · simp [hlo, Bool.and_comm, hi]
  · simp [hlo]

/-- A mask that clears a field's position clears the field, whatever its value. -/
theorem fieldAt_and_eq_zero {n lo : Nat} {m : Word} (h : fieldAt (BitVec.allOnes n) lo &&& m = 0) (v : BitVec n) :
    fieldAt v lo &&& m = 0 := by
  have hv : fieldAt v lo = fieldAt v lo &&& fieldAt (BitVec.allOnes n) lo := by
    ext i hi
    rw [BitVec.getElem_and, getElem_fieldAt, getElem_fieldAt, BitVec.getLsbD_allOnes]
    by_cases hn : i - lo < n
    · cases decide (lo ≤ i) <;> simp [hn]
    · simp [BitVec.getLsbD_of_ge v (i - lo) (by omega)]
  rw [hv, BitVec.and_assoc, h]
  exact BitVec.and_zero

theorem opWord_eq_fieldAt (op : BitVec 8) : opWord op = fieldAt op 24 := rfl

/-- The opcode of a word, alone. -/
theorem opWord_opField (w : Word) : opWord (opField w) = w &&& 0xFF000000 :=
  fieldAt_extractLsb' w 24 8

theorem opField_opWord (op : BitVec 8) : opField (opWord op) = op := extractLsb'_fieldAt_self op (by decide)

/-! ## Decoding an encoded command -/

/-- The opcode is fixed in every row. -/
theorem opcode_and_mask : ∀ r ∈ opcodeRows, 0xFF000000 &&& r.mask = 0xFF000000 := by
  decide

theorem opWord_and_mask {r : OpcodeRow} (hr : r ∈ opcodeRows) (op : BitVec 8) : opWord op &&& r.mask = opWord op := by
  rw [← opField_opWord op, opWord_opField, BitVec.and_assoc, opcode_and_mask r hr]

/-- An opcode's word with operand fields in the bits its row leaves free decodes by the row. -/
theorem decode_opWord_or {r : OpcodeRow} {fields : Word} (hrow : opcodeRows.find? (fun q => q.op == r.op) = some r)
    (hfree : fields &&& r.mask = 0) :
    decode (opWord r.op ||| fields) = .command (r.build (opWord r.op ||| fields)) := by
  have hr : r ∈ opcodeRows := List.mem_of_find?_eq_some hrow
  have hword : opWord (opField fields) = 0 := by
    rw [opWord_opField, ← opcode_and_mask r hr, BitVec.and_comm 0xFF000000, ← BitVec.and_assoc, hfree]
    exact BitVec.zero_and
  have hfields : opField fields = 0 := by
    rw [← opField_opWord (opField fields), hword]
    rfl
  have hop : opField (opWord r.op ||| fields) = r.op := by
    have hor : opField (opWord r.op ||| fields) = opField (opWord r.op) ||| opField fields := BitVec.extractLsb'_or
    rw [hor, opField_opWord, hfields]
    exact BitVec.or_zero
  have hfix : (opWord r.op ||| fields) &&& r.mask = r.pattern := by
    rw [BitVec.and_comm, BitVec.and_or_distrib_left, BitVec.and_comm, opWord_and_mask hr, BitVec.and_comm, hfree]
    exact BitVec.or_zero
  exact decode_of_row hop hrow hfix

/-- The word of a command with one operand decodes to it. -/
theorem decode_of_field {r : OpcodeRow} {n lo : Nat} {command : BitVec n → Instr}
    (hrow : opcodeRows.find? (fun q => q.op == r.op) = some r) (hbuild : ∀ w, r.build w = command (w.extractLsb' lo n))
    (hfree : fieldAt (BitVec.allOnes n) lo &&& r.mask = 0) (hlo : lo + n ≤ 24) (v : BitVec n) :
    decode (opWord r.op ||| fieldAt v lo) = .command (command v) := by
  have hv : (opWord r.op ||| fieldAt v lo).extractLsb' lo n = v := by
    rw [BitVec.extractLsb'_or, opWord_eq_fieldAt, extractLsb'_fieldAt_of_disjoint _ (by omega) (by omega),
      extractLsb'_fieldAt_self v (by omega)]
    exact BitVec.zero_or
  rw [decode_opWord_or hrow (fieldAt_and_eq_zero hfree v), hbuild, hv]

/-- The word of a command with two operands decodes to it. -/
theorem decode_of_two_fields {r : OpcodeRow} {m n hi lo : Nat} {command : BitVec m → BitVec n → Instr}
    (hrow : opcodeRows.find? (fun q => q.op == r.op) = some r)
    (hbuild : ∀ w, r.build w = command (w.extractLsb' hi m) (w.extractLsb' lo n))
    (hfreeHi : fieldAt (BitVec.allOnes m) hi &&& r.mask = 0) (hfreeLo : fieldAt (BitVec.allOnes n) lo &&& r.mask = 0)
    (hhi : hi + m ≤ 24) (hlo : lo + n ≤ hi) (u : BitVec m) (v : BitVec n) :
    decode (opWord r.op ||| fieldAt u hi ||| fieldAt v lo) = .command (command u v) := by
  have hfree : (fieldAt u hi ||| fieldAt v lo) &&& r.mask = 0 := by
    rw [BitVec.and_comm, BitVec.and_or_distrib_left, BitVec.and_comm, fieldAt_and_eq_zero hfreeHi, BitVec.and_comm,
      fieldAt_and_eq_zero hfreeLo]
    exact BitVec.or_zero
  have hu : (opWord r.op ||| (fieldAt u hi ||| fieldAt v lo)).extractLsb' hi m = u := by
    rw [BitVec.extractLsb'_or, BitVec.extractLsb'_or, opWord_eq_fieldAt,
      extractLsb'_fieldAt_of_disjoint _ (by omega) (by omega), extractLsb'_fieldAt_self u (by omega),
      extractLsb'_fieldAt_of_disjoint v (by omega) (by omega)]
    exact BitVec.zero_or.trans BitVec.or_zero
  have hv : (opWord r.op ||| (fieldAt u hi ||| fieldAt v lo)).extractLsb' lo n = v := by
    rw [BitVec.extractLsb'_or, BitVec.extractLsb'_or, opWord_eq_fieldAt,
      extractLsb'_fieldAt_of_disjoint _ (by omega) (by omega), extractLsb'_fieldAt_of_disjoint u (by omega) (by omega),
      extractLsb'_fieldAt_self v (by omega)]
    exact BitVec.zero_or.trans BitVec.zero_or
  rw [BitVec.or_assoc, decode_opWord_or hrow hfree, hbuild, hu, hv]

/-- R90: the word of a command decodes to it, by the row of its opcode. -/
theorem decode_encode (i : Instr) : decode (encode i) = .command i := by
  cases i with
  | nop => rfl
  | srst => rfl
  | clrerr => rfl
  | rdcr n =>
    exact decode_of_field (r := opcodeRows[3]) (command := .rdcr) rfl (fun _ => rfl) (by decide) (by decide) n
  | keyclr => rfl
  | keypush d =>
    exact decode_of_field (r := opcodeRows[5]) (command := .keypush) rfl (fun _ => rfl) (by decide) (by decide) d
  | ldip idx val =>
    exact decode_of_two_fields (r := opcodeRows[6]) (command := .ldip) rfl (fun _ => rfl) (by decide) (by decide)
      (by decide) (by decide) idx val
  | ldfp idx val =>
    exact decode_of_two_fields (r := opcodeRows[7]) (command := .ldfp) rfl (fun _ => rfl) (by decide) (by decide)
      (by decide) (by decide) idx val
  | init => rfl
  | permip => rfl
  | permfp => rfl
  | permipi => rfl
  | permfpi => rfl
  | rdrk rnd idx =>
    exact decode_of_two_fields (r := opcodeRows[13]) (command := .rdrk) rfl (fun _ => rfl) (by decide) (by decide)
      (by decide) (by decide) rnd idx
  | round rnd =>
    exact decode_of_field (r := opcodeRows[14]) (command := .round) rfl (fun _ => rfl) (by decide) (by decide) rnd
  | ldblk idx d =>
    exact decode_of_two_fields (r := opcodeRows[15]) (command := .ldblk) rfl (fun _ => rfl) (by decide) (by decide)
      (by decide) (by decide) idx d
  | rdblk idx =>
    exact decode_of_field (r := opcodeRows[16]) (command := .rdblk) rfl (fun _ => rfl) (by decide) (by decide) idx
  | xform dir =>
    exact decode_of_field (r := opcodeRows[17]) (command := .xform) rfl (fun _ => rfl) (by decide) (by decide) dir
  | wrbuf addr d =>
    exact decode_of_two_fields (r := opcodeRows[18]) (command := .wrbuf) rfl (fun _ => rfl) (by decide) (by decide)
      (by decide) (by decide) addr d
  | setlen n =>
    exact decode_of_field (r := opcodeRows[19]) (command := .setlen) rfl (fun _ => rfl) (by decide) (by decide) n
  | run dir =>
    exact decode_of_field (r := opcodeRows[20]) (command := .run) rfl (fun _ => rfl) (by decide) (by decide) dir
  | rdobuf addr =>
    exact decode_of_field (r := opcodeRows[21]) (command := .rdobuf) rfl (fun _ => rfl) (by decide) (by decide) addr

/-- Settles O3: the operands stand in the bits their row leaves free, so the row is found and reads them back. -/
theorem decodeInvertsEncode : Obligations.DecodeInvertsEncode := fun i _ => decode_encode i

/-! ## Encoding a decoded word -/

/-- A word all of whose bits its row fixes. -/
theorem opWord_eq_of_mask {w : Word} {op : BitVec 8} (h : w &&& 0xFFFFFFFF = opWord op) : opWord op = w :=
  h.symm.trans BitVec.and_allOnes

/-- A word whose bits are those its row fixes and one field. -/
theorem opWord_or_field_eq {w mask : Word} {op : BitVec 8} {lo n : Nat} (h : w &&& mask = opWord op)
    (hall : mask ||| fieldAt (BitVec.allOnes n) lo = BitVec.allOnes 32) :
    opWord op ||| fieldAt (w.extractLsb' lo n) lo = w := by
  rw [← h, fieldAt_extractLsb', ← BitVec.and_or_distrib_left, hall, BitVec.and_allOnes]

/-- A word whose bits are those its row fixes and two fields. -/
theorem opWord_or_fields_eq {w mask : Word} {op : BitVec 8} {hi m lo n : Nat} (h : w &&& mask = opWord op)
    (hall : mask ||| fieldAt (BitVec.allOnes m) hi ||| fieldAt (BitVec.allOnes n) lo = BitVec.allOnes 32) :
    opWord op ||| fieldAt (w.extractLsb' hi m) hi ||| fieldAt (w.extractLsb' lo n) lo = w := by
  rw [← h, fieldAt_extractLsb', fieldAt_extractLsb', ← BitVec.and_or_distrib_left, ← BitVec.and_or_distrib_left, hall,
    BitVec.and_allOnes]

/-- The command that a row reads from a word which has the row's fixed bits encodes to that very word. -/
theorem encode_build {w : Word} : ∀ r ∈ opcodeRows, w &&& r.mask = r.pattern → encode (r.build w) = w := by
  simp only [opcodeRows, configurationRows, stageRows, dataRows, List.forall_mem_append, List.forall_mem_cons]
  refine ⟨⟨?_, ?_⟩, ?_⟩
  · exact ⟨
      opWord_eq_of_mask, -- nop
      opWord_eq_of_mask, -- srst
      opWord_eq_of_mask, -- clrerr
      fun h => opWord_or_field_eq h (by decide), -- rdcr
      opWord_eq_of_mask, -- keyclr
      fun h => opWord_or_field_eq h (by decide), -- keypush
      fun h => opWord_or_fields_eq h (by decide), -- ldip
      fun h => opWord_or_fields_eq h (by decide), -- ldfp
      opWord_eq_of_mask, -- init
      nofun⟩
  · exact ⟨
      opWord_eq_of_mask, -- permip
      opWord_eq_of_mask, -- permfp
      opWord_eq_of_mask, -- permipi
      opWord_eq_of_mask, -- permfpi
      fun h => opWord_or_fields_eq h (by decide), -- rdrk
      fun h => opWord_or_field_eq h (by decide), -- round
      nofun⟩
  · exact ⟨
      fun h => opWord_or_fields_eq h (by decide), -- ldblk
      fun h => opWord_or_field_eq h (by decide), -- rdblk
      fun h => opWord_or_field_eq h (by decide), -- xform
      fun h => opWord_or_fields_eq h (by decide), -- wrbuf
      fun h => opWord_or_field_eq h (by decide), -- setlen
      fun h => opWord_or_field_eq h (by decide), -- run
      fun h => opWord_or_field_eq h (by decide), -- rdobuf
      nofun⟩

/-- A defined opcode has a row, and its reserved bits are the row's mask below the opcode. -/
theorem exists_row_of_reservedBits {op : BitVec 8} {m : Word} (h : reservedBits op = some m) :
    ∃ r, opcodeRows.find? (fun r => r.op == op) = some r ∧ m = r.mask &&& 0x00FFFFFF := by
  cases hrow : opcodeRows.find? (fun r => r.op == op) with
  | none =>
    have hno : reservedBits op = none :=
      reservedBits_of_no_row fun r hr hop => by simpa [hop] using List.find?_eq_none.mp hrow r hr
    simp [hno] at h
  | some r =>
    exact ⟨r, rfl, Option.some.inj (h.symm.trans (reservedBits_of_find?_opcodeRows hrow))⟩

/-- A word of a row's opcode without a reserved bit set has the row's fixed bits. -/
theorem and_mask_eq_pattern {w : Word} {r : OpcodeRow} (hr : r ∈ opcodeRows) (hop : r.op = opField w)
    (hclear : w &&& (r.mask &&& 0x00FFFFFF) = 0) : w &&& r.mask = r.pattern := by
  have hhigh : w &&& r.mask &&& 0xFF000000 = r.pattern := by
    rw [BitVec.and_assoc, BitVec.and_comm r.mask, opcode_and_mask r hr, ← opWord_opField, ← hop]
    rfl
  have hlow : w &&& r.mask &&& 0x00FFFFFF = 0 := (BitVec.and_assoc w _ _).trans hclear
  calc w &&& r.mask = w &&& r.mask &&& (0xFF000000 ||| 0x00FFFFFF) := BitVec.and_allOnes.symm
    _ = r.pattern ||| 0 := by rw [BitVec.and_or_distrib_left, hhigh, hlow]
    _ = r.pattern := BitVec.or_zero

/-- Settles O4: an opcode without a format has no row; one with a format has, and its reserved bits decide between the
error and the row's command, which encodes to the word. -/
theorem everyWordHasExactlyOneMeaning : Obligations.EveryWordHasExactlyOneMeaning := by
  refine fun w => ⟨decode_of_reservedBits_none, fun m hm => ⟨decode_of_reservedBits_set hm, fun hclear => ?_⟩⟩
  obtain ⟨r, hrow, rfl⟩ := exists_row_of_reservedBits hm
  have hr : r ∈ opcodeRows := List.mem_of_find?_eq_some hrow
  have hop : r.op = opField w := by simpa using List.find?_some hrow
  have hfix := and_mask_eq_pattern hr hop hclear
  exact ⟨r.build w, decode_of_row rfl hrow hfix, encode_build r hr hfix⟩

end Sys2Proof.Machine

/-!
# What a command can do

Every command either raises an error or succeeds. `Raises` says when it raises which error and `Succeeds` what a success
leaves, so that a statement over all commands is a case analysis of these two.
-/

namespace Sys2Proof.Machine

/-- In state `s` the command raises the error (R211, in the order of R218). -/
inductive Raises (s : State) : Instr → CommandError → Prop
  | notReady {i : Instr} (hneeds : needsReady i = true) (h : s.ready = false) : Raises s i .notReady
  | registerNumber {n : BitVec 8} (h : 9 < n.toNat) : Raises s (.rdcr n) .controlRegisterNumber
  | keyStoreFull {d : BitVec 8} (h : s.klen = s.params.keyMax) : Raises s (.keypush d) .keyStoreFull
  | ipNotBijective (h : ¬ validTable s.ip) : Raises s .init .ipNotBijective
  | fpNotBijective (hip : validTable s.ip) (h : ¬ validTable s.fp) : Raises s .init .fpNotBijective
  | emptyKey (hip : validTable s.ip) (hfp : validTable s.fp) (h : s.key = []) : Raises s .init .emptyKey
  | inputAddress {addr : BitVec 16} {d : BitVec 8} (h : s.params.bufMax ≤ addr.toNat) :
    Raises s (.wrbuf addr d) .bufferAddress
  | outputAddress {addr : BitVec 16} (h : s.olen.toNat ≤ addr.toNat) : Raises s (.rdobuf addr) .bufferAddress
  | length {n : BitVec 16} (h : s.params.bufMax < n.toNat) : Raises s (.setlen n) .lengthAboveCapacity
  | misaligned {dir : BitVec 1} (hready : s.ready = true) (h : s.len.toNat % 8 ≠ 0) :
    Raises s (.run dir) (.misaligned (BitVec.ofNat 8 (s.len.toNat % 8)))

/-- In state `s` the command succeeds with this response data, and this is the state but for the response. -/
inductive Succeeds (s : State) : Instr → Word → State → Prop
  | nop : Succeeds s .nop 0 s
  | srst : Succeeds s .srst 0 (clearRegisters s)
  | clrerr : Succeeds s .clrerr 0 (clearLatch s)
  | rdcr {n : BitVec 8} {v : Word} (h : controlRegister s n = some v) : Succeeds s (.rdcr n) v s
  | keyclr : Succeeds s .keyclr 0 { s with key := [], ready := false }
  | keypush {d : BitVec 8} (h : s.klen ≠ s.params.keyMax) :
    Succeeds s (.keypush d) 0 { s with key := s.key ++ [d], ready := false }
  | ldip {idx : BitVec 3} {val : BitVec 4} :
    Succeeds s (.ldip idx val) 0 { s with ip := setOffset s.ip idx val, ready := false }
  | ldfp {idx : BitVec 3} {val : BitVec 4} :
    Succeeds s (.ldfp idx val) 0 { s with fp := setOffset s.fp idx val, ready := false }
  | init (hip : validTable s.ip) (hfp : validTable s.fp) (hkey : 0 < s.key.length) :
    Succeeds s .init 0
      { s with rk := schedule s.key hkey, ipi := invertTable s.ip hip, fpi := invertTable s.fp hfp, ready := true }
  | permip (h : s.ready = true) : Succeeds s .permip 0 { s with blk := permute s.ip s.blk }
  | permfp (h : s.ready = true) : Succeeds s .permfp 0 { s with blk := permute s.fp s.blk }
  | permipi (h : s.ready = true) : Succeeds s .permipi 0 { s with blk := permute s.ipi s.blk }
  | permfpi (h : s.ready = true) : Succeeds s .permfpi 0 { s with blk := permute s.fpi s.blk }
  | rdrk {rnd : BitVec 4} {idx : BitVec 3} (h : s.ready = true) :
    Succeeds s (.rdrk rnd idx) ((atOffset (roundKey s.rk rnd) idx).setWidth 32) s
  | round {rnd : BitVec 4} (h : s.ready = true) :
    Succeeds s (.round rnd) 0 { s with blk := roundBlock s.blk (roundKey s.rk rnd) }
  | ldblk {idx : BitVec 3} {d : BitVec 8} : Succeeds s (.ldblk idx d) 0 { s with blk := setOffset s.blk idx d }
  | rdblk {idx : BitVec 3} : Succeeds s (.rdblk idx) ((atOffset s.blk idx).setWidth 32) s
  | xform {dir : BitVec 1} (h : s.ready = true) : Succeeds s (.xform dir) 0 { s with blk := select s dir s.blk }
  | wrbuf {addr : BitVec 16} {d : BitVec 8} (h : addr.toNat < s.params.bufMax) :
    Succeeds s (.wrbuf addr d) 0 { s with ibuf := s.ibuf.write addr.toNat d }
  | setlen {n : BitVec 16} (h : n.toNat ≤ s.params.bufMax) : Succeeds s (.setlen n) 0 { s with len := n }
  | run {dir : BitVec 1} (hready : s.ready = true) (h : s.len.toNat % 8 = 0) :
    Succeeds s (.run dir) (s.len.setWidth 32)
      { s with obuf := runBlocks s dir (s.len.toNat / 8), olen := s.len }
  | rdobuf {addr : BitVec 16} (h : addr.toNat < s.olen.toNat) :
    Succeeds s (.rdobuf addr) ((byteAt s .obuf addr.toNat).setWidth 32) s

theorem exec_init_of_not_validTable_fp {s : State} (hip : validTable s.ip) (h : ¬ validTable s.fp) :
    exec .init s = .next (afterError .fpNotBijective s) := by
  obtain ⟨_, hfp, _⟩ | ⟨hno, _⟩ | ⟨_, _, hexec⟩ | ⟨_, hfp, _⟩ := exec_init_cases s
  · exact absurd hfp h
  · exact absurd hip hno
  · exact hexec
  · exact absurd hfp h

theorem exec_init_of_empty_key {s : State} (hip : validTable s.ip) (hfp : validTable s.fp) (h : s.key = []) :
    exec .init s = .next (afterError .emptyKey s) := by
  obtain ⟨_, _, hkey, _⟩ | ⟨hno, _⟩ | ⟨_, hno, _⟩ | ⟨_, _, _, hexec⟩ := exec_init_cases s
  · simp [h] at hkey
  · exact absurd hip hno
  · exact absurd hfp hno
  · exact hexec

theorem exec_of_raises {s : State} {i : Instr} {e : CommandError} (h : Raises s i e) :
    exec i s = .next (afterError e s) := by
  cases h with
  | notReady hneeds h => exact exec_of_needsReady_of_not_ready hneeds h
  | registerNumber h => exact exec_rdcr_of_none ((controlRegister_eq_none_iff s _).mpr h)
  | keyStoreFull h => exact exec_keypush_full _ h
  | ipNotBijective h => exact exec_init_of_not_validTable_ip h
  | fpNotBijective hip h => exact exec_init_of_not_validTable_fp hip h
  | emptyKey hip hfp h => exact exec_init_of_empty_key hip hfp h
  | inputAddress h => exact exec_wrbuf_above _ h
  | outputAddress h => exact exec_rdobuf_above h
  | length h => exact exec_setlen_above h
  | misaligned hready h => exact exec_run_of_misaligned _ hready h

theorem exec_of_succeeds {s u : State} {i : Instr} {d : Word} (h : Succeeds s i d u) :
    exec i s = .next (afterOk d u) := by
  cases h with
  | nop => exact exec_nop s
  | srst => exact exec_srst s
  | clrerr => exact exec_clrerr s
  | rdcr h => exact exec_rdcr_of_some h
  | keyclr => exact exec_keyclr s
  | keypush h => exact exec_keypush_room _ h
  | ldip => exact exec_ldip _ _ s
  | ldfp => exact exec_ldfp _ _ s
  | init hip hfp hkey => exact exec_init_ok s hip hfp hkey
  | permip h => exact permuteBlk_of_ready s.ip h
  | permfp h => exact permuteBlk_of_ready s.fp h
  | permipi h => exact permuteBlk_of_ready s.ipi h
  | permfpi h => exact permuteBlk_of_ready s.fpi h
  | rdrk h => exact exec_rdrk_of_ready _ _ h
  | round h => exact exec_round_of_ready _ h
  | ldblk => exact exec_ldblk _ _ s
  | rdblk => exact exec_rdblk _ s
  | xform h => exact exec_xform_of_ready _ h
  | wrbuf h => exact exec_wrbuf_below _ (Nat.not_le.mpr h)
  | setlen h => exact exec_setlen_fits (Nat.not_lt.mpr h)
  | run hready h => exact exec_run_of_aligned _ hready h
  | rdobuf h => exact exec_rdobuf_valid (Nat.not_le.mpr h)

/-- `INIT` makes the construction or stops at the first check that fails. -/
theorem init_raises_or_succeeds (s : State) : (∃ e, Raises s .init e) ∨ ∃ d u, Succeeds s .init d u := by
  by_cases hip : validTable s.ip
  · by_cases hfp : validTable s.fp
    · rcases s.key.length.eq_zero_or_pos with hkey | hkey
      · exact .inl ⟨_, .emptyKey hip hfp (List.length_eq_zero_iff.mp hkey)⟩
      · exact .inr ⟨_, _, .init hip hfp hkey⟩
    · exact .inl ⟨_, .fpNotBijective hip hfp⟩
  · exact .inl ⟨_, .ipNotBijective hip⟩

/-- Every command raises an error or succeeds, in every state. -/
theorem raises_or_succeeds (s : State) (i : Instr) : (∃ e, Raises s i e) ∨ ∃ d u, Succeeds s i d u := by
  by_cases hrefused : needsReady i = true ∧ s.ready = false
  · exact .inl ⟨_, .notReady hrefused.1 hrefused.2⟩
  have ready (h : needsReady i = true) : s.ready = true := by simpa [h] using hrefused
  cases i with
  | nop => exact .inr ⟨_, _, .nop⟩
  | srst => exact .inr ⟨_, _, .srst⟩
  | clrerr => exact .inr ⟨_, _, .clrerr⟩
  | rdcr n =>
    cases hv : controlRegister s n with
    | none => exact .inl ⟨_, .registerNumber ((controlRegister_eq_none_iff s n).mp hv)⟩
    | some v => exact .inr ⟨_, _, .rdcr hv⟩
  | keyclr => exact .inr ⟨_, _, .keyclr⟩
  | keypush d => exact (eq_or_ne s.klen s.params.keyMax).imp (⟨_, .keyStoreFull ·⟩) (⟨_, _, .keypush ·⟩)
  | ldip idx val => exact .inr ⟨_, _, .ldip⟩
  | ldfp idx val => exact .inr ⟨_, _, .ldfp⟩
  | init => exact init_raises_or_succeeds s
  | permip => exact .inr ⟨_, _, .permip (ready rfl)⟩
  | permfp => exact .inr ⟨_, _, .permfp (ready rfl)⟩
  | permipi => exact .inr ⟨_, _, .permipi (ready rfl)⟩
  | permfpi => exact .inr ⟨_, _, .permfpi (ready rfl)⟩
  | rdrk rnd idx => exact .inr ⟨_, _, .rdrk (ready rfl)⟩
  | round rnd => exact .inr ⟨_, _, .round (ready rfl)⟩
  | ldblk idx d => exact .inr ⟨_, _, .ldblk⟩
  | rdblk idx => exact .inr ⟨_, _, .rdblk⟩
  | xform dir => exact .inr ⟨_, _, .xform (ready rfl)⟩
  | wrbuf addr d => exact (Nat.lt_or_ge _ _).symm.imp (⟨_, .inputAddress ·⟩) (⟨_, _, .wrbuf ·⟩)
  | setlen n => exact (Nat.lt_or_ge _ _).imp (⟨_, .length ·⟩) (⟨_, _, .setlen ·⟩)
  | run dir =>
    by_cases hlen : s.len.toNat % 8 = 0
    · exact .inr ⟨_, _, .run (ready rfl) hlen⟩
    · exact .inl ⟨_, .misaligned (ready rfl) hlen⟩
  | rdobuf addr => exact (Nat.lt_or_ge _ _).symm.imp (⟨_, .outputAddress ·⟩) (⟨_, _, .rdobuf ·⟩)

/-- Everything a command can do. -/
theorem exec_cases {i : Instr} {s t : State} (h : exec i s = .next t) :
    (∃ e, Raises s i e ∧ t = afterError e s) ∨ ∃ d u, Succeeds s i d u ∧ t = afterOk d u := by
  obtain ⟨e, he⟩ | ⟨d, u, hu⟩ := raises_or_succeeds s i
  · exact .inl ⟨e, he, Host.Outcome.next.inj (h.symm.trans (exec_of_raises he))⟩
  · exact .inr ⟨d, u, hu, Host.Outcome.next.inj (h.symm.trans (exec_of_succeeds hu))⟩

/-- A command that answers code 0 succeeds. -/
theorem succeeds_of_resp_ok {i : Instr} {s t : State} {d : Word} (h : exec i s = .next t)
    (hresp : t.resp = some ⟨0, d⟩) : ∃ u, Succeeds s i d u ∧ t = afterOk d u := by
  obtain ⟨e, -, rfl⟩ | ⟨d', u, hu, rfl⟩ := exec_cases h
  · exact absurd (congrArg Response.code (Option.some.inj hresp)) (errorCode_ne_zero e)
  · cases hresp
    exact ⟨u, hu, rfl⟩

/-- A command that answers another code raises an error. -/
theorem raises_of_resp_error {i : Instr} {s t : State} {r : Response} (h : exec i s = .next t)
    (hresp : t.resp = some r) (hcode : r.code ≠ 0) : ∃ e, Raises s i e ∧ t = afterError e s := by
  obtain ⟨e, he, rfl⟩ | ⟨d, u, hu, rfl⟩ := exec_cases h
  · exact ⟨e, he, rfl⟩
  · cases hresp
    exact absurd rfl hcode

end Sys2Proof.Machine

/-!
# What a command changes (10_state.md sections 1 and 4, 60_exceptions.md)

Frames and error codes over all commands, by the cases of `Raises` and `Succeeds`.
-/

namespace Sys2Proof.Machine

/-! ## Errors (R211, R220) -/

/-- An error raised is one R211 lists for the command. -/
theorem mem_possibleErrors_of_raises {s : State} {i : Instr} {e : CommandError} (h : Raises s i e) :
    (errorCode e, (errorInfo e).setWidth 32) ∈ possibleErrors i := by
  cases h with
  | notReady hneeds _ => cases i <;> simp_all [needsReady, possibleErrors, errorCode, errorInfo]
  | misaligned _ h =>
    have hrange : ∀ r < 8, r ≠ 0 → ((2, (BitVec.ofNat 8 r).setWidth 32) : Byte × Word) ∈ possibleErrors (.run 0) := by
      decide
    exact hrange _ (Nat.mod_lt _ (by decide)) h
  | _ => simp [possibleErrors, errorCode, errorInfo]

/-- Settles O52: a command that fails raised an error, which R211 lists. -/
theorem onlyTheListedErrorsAreRaised : Obligations.OnlyTheListedErrorsAreRaised := by
  intro i s t r h hresp hcode
  obtain ⟨e, he, rfl⟩ := raises_of_resp_error h hresp hcode
  cases hresp
  exact mem_possibleErrors_of_raises he

/-- A success leaves the latch, but for the two commands that clear it. -/
theorem latch_of_succeeds {s u : State} {i : Instr} {d : Word} (h : Succeeds s i d u) :
    if i = .clrerr ∨ i = .srst then u.err = 0 ∧ u.errInfo = 0 else u.err = s.err ∧ u.errInfo = s.errInfo := by
  cases h <;> simp

/-- Settles O51: code 0 is the answer of a success. -/
theorem successKeepsTheLatch : Obligations.SuccessKeepsTheLatch := by
  intro i s t d h hresp
  obtain ⟨u, hu, rfl⟩ := succeeds_of_resp_ok h hresp
  have hlatch := latch_of_succeeds hu
  exact hlatch

/-! ## `READY` and the configuration (R25, R43, R110, R144, R244) -/

/-- The commands that write the configuration (R110). -/
def writesConfiguration (i : Instr) : Prop :=
  i = .keyclr ∨ (∃ d, i = .keypush d) ∨ (∃ idx val, i = .ldip idx val) ∨ ∃ idx val, i = .ldfp idx val

/-- What a success does to `READY`. -/
theorem ready_of_succeeds {s u : State} {i : Instr} {d : Word} (h : Succeeds s i d u) :
    (i = .init ∧ u.ready = true) ∨ ((i = .srst ∨ writesConfiguration i) ∧ u.ready = false) ∨
      (¬ writesConfiguration i ∧ u.ready = s.ready) := by
  cases h <;> simp [writesConfiguration]

/-- Settles O21: an error leaves `READY`; of the successes `INIT` sets it, and `SRST` and the configuration writes clear
it. -/
theorem readyRisesAndFallsOnlyAsSaid : Obligations.ReadyRisesAndFallsOnlyAsSaid := by
  intro i s t h
  obtain ⟨e, he, rfl⟩ | ⟨d, u, hu, rfl⟩ := exec_cases h
  · have hkeep : (afterError e s).ready = s.ready := latchError_ready e s
    refine ⟨fun h0 h1 => ?_, fun h1 h0 => ?_, fun d hresp => ?_⟩
    · simp [hkeep, h0] at h1
    · simp [hkeep, h1] at h0
    · exact absurd (congrArg Response.code (Option.some.inj hresp)) (errorCode_ne_zero e)
  · have hready : (afterOk d u).ready = u.ready := rfl
    rw [hready]
    obtain ⟨rfl, hset⟩ | ⟨hi, hclear⟩ | ⟨hno, hkeep⟩ := ready_of_succeeds hu
    · simp [hset]
    · exact ⟨fun _ h1 => by simp [hclear] at h1, fun _ _ => hi, fun _ _ _ => hclear⟩
    · exact ⟨fun h0 h1 => by simp [hkeep, h0] at h1, fun h1 h0 => by simp [hkeep, h1] at h0,
        fun _ _ hconf => absurd hconf hno⟩

/-- Settles O22: an error writes the latch alone, and a success that writes KEY, IP or FP clears `READY`. -/
theorem configurationIsFrozenWhileReady : Obligations.ConfigurationIsFrozenWhileReady := by
  intro i s t h
  obtain ⟨e, -, rfl⟩ | ⟨d, u, hu, rfl⟩ := exec_cases h
  · simp [afterError_eq]
  · cases hu <;> simp [afterOk]

/-! ## The state table (R20) -/

/-- Settles O54: an error writes the latch alone, and each success the fields that `Succeeds` names for it. -/
theorem stateIsWrittenOnlyByTheListedCommands : Obligations.StateIsWrittenOnlyByTheListedCommands := by
  intro i s t h
  obtain ⟨e, -, rfl⟩ | ⟨d, u, hu, rfl⟩ := exec_cases h
  · simp [afterError_eq]
  · cases hu <;> simp [afterOk]

/-! ## What the latch does not decide (R26, R221) -/

/-- The state with another latch. -/
def withLatch (s : State) (c e : Byte) : State := { s with err := c, errInfo := e }

/-- Which error a command raises does not depend on the latch. -/
theorem raises_withLatch {s : State} {i : Instr} {e : CommandError} (c info : Byte) (h : Raises s i e) :
    Raises (withLatch s c info) i e := by
  cases h <;> constructor <;> assumption

/-- The registers but `STATUS` and `ERR` do not show the latch (R33 to R42). -/
theorem controlRegister_withLatch (s : State) (c e : Byte) {n : BitVec 8} (h1 : n ≠ 1) (h2 : n ≠ 2) :
    controlRegister (withLatch s c e) n = controlRegister s n := by
  unfold controlRegister
  split
  case h_2 hn => exact absurd (BitVec.eq_of_toNat_eq hn) h1
  case h_3 hn => exact absurd (BitVec.eq_of_toNat_eq hn) h2
  all_goals rfl

theorem runBlocks_withLatch (s : State) (c e : Byte) (dir : BitVec 1) (n : Nat) :
    runBlocks (withLatch s c e) dir n = runBlocks s dir n := by
  induction n with
  | zero => rfl
  | succ n ih =>
    rw [runBlocks, runBlocks, ih]
    rfl

/-- A success with another latch is the same success. -/
theorem succeeds_withLatch {s u : State} {i : Instr} {d : Word} (c e : Byte) (h : Succeeds s i d u)
    (h1 : i ≠ .rdcr 1) (h2 : i ≠ .rdcr 2) :
    ∃ u', Succeeds (withLatch s c e) i d u' ∧ u' = withLatch u u'.err u'.errInfo := by
  cases h with
  | nop => exact ⟨_, .nop, rfl⟩
  | srst => exact ⟨_, .srst, rfl⟩
  | clrerr => exact ⟨_, .clrerr, rfl⟩
  | rdcr h =>
    exact ⟨_, .rdcr ((controlRegister_withLatch s c e (by simpa using h1) (by simpa using h2)).trans h), rfl⟩
  | keyclr => exact ⟨_, .keyclr, rfl⟩
  | keypush h => exact ⟨_, .keypush h, rfl⟩
  | ldip => exact ⟨_, .ldip, rfl⟩
  | ldfp => exact ⟨_, .ldfp, rfl⟩
  | init hip hfp hkey => exact ⟨_, .init (s := withLatch s c e) hip hfp hkey, rfl⟩
  | permip h => exact ⟨_, .permip h, rfl⟩
  | permfp h => exact ⟨_, .permfp h, rfl⟩
  | permipi h => exact ⟨_, .permipi h, rfl⟩
  | permfpi h => exact ⟨_, .permfpi h, rfl⟩
  | rdrk h => exact ⟨_, .rdrk h, rfl⟩
  | round h => exact ⟨_, .round h, rfl⟩
  | ldblk => exact ⟨_, .ldblk, rfl⟩
  | rdblk => exact ⟨_, .rdblk, rfl⟩
  | xform h => exact ⟨_, .xform h, rfl⟩
  | wrbuf h => exact ⟨_, .wrbuf h, rfl⟩
  | setlen h => exact ⟨_, .setlen h, rfl⟩
  | run hready h =>
    refine ⟨_, .run hready h, ?_⟩
    rw [runBlocks_withLatch]
    rfl
  | rdobuf h => exact ⟨_, .rdobuf h, rfl⟩

/-- Settles O53: the error raised is the same, and so is the success, which writes the same fields besides the latch. -/
theorem latchedErrorsBlockNothing : Obligations.LatchedErrorsBlockNothing := by
  intro i s t c e h h1 h2
  obtain ⟨er, he, rfl⟩ | ⟨d, u, hu, rfl⟩ := exec_cases h
  · refine ⟨_, exec_of_raises (raises_withLatch c e he), ?_⟩
    simp [afterError_eq]
  · obtain ⟨u', hu', happart⟩ := succeeds_withLatch c e hu h1 h2
    exact ⟨_, exec_of_succeeds hu', congrArg (afterOk d) happart⟩

end Sys2Proof.Machine

/-!
# The invariant (10_state.md section 8)

Every step keeps R43 with the model's own clauses, so every state reached from reset meets them.
-/

namespace Sys2Proof.Machine

/-! ## An error, a success, an event taken -/

theorem stateInv_afterError {s : State} (h : StateInv s) (e : CommandError) : StateInv (afterError e s) := by
  have herr : (if s.err = 0 then errorCode e else s.err).toNat ≤ 5 := by
    split
    · exact errorCode_le e
    · exact h.err_le
  rw [afterError_eq]
  refine { h with err_le := herr, errInfo_zero := fun hzero => ?_ }
  dsimp only at hzero
  split at hzero
  · exact absurd hzero (errorCode_ne_zero e)
  · contradiction

theorem stateInv_afterOk {s : State} (h : StateInv s) (d : Word) : StateInv (afterOk d s) :=
  { h with }

theorem stateInv_takeEvent {s : State} (h : StateInv s) (rest : List PortEvent) : StateInv { s with port := rest } :=
  { h with }

/-! ## Each kind of write -/

theorem stateInv_clearLatch {s : State} (h : StateInv s) : StateInv (clearLatch s) :=
  { h with err_le := Nat.zero_le 5, errInfo_zero := fun _ => rfl }

theorem stateInv_clearRegisters {s : State} (h : StateInv s) : StateInv (clearRegisters s) :=
  { h with
    construction := nofun
    klen_le := Nat.zero_le _
    len_le := Nat.zero_le _
    olen_le := Nat.zero_le _
    olen_aligned := rfl
    errInfo_zero := fun _ => rfl
    err_le := Nat.zero_le 5
    output_written := fun _ ha => absurd ha (Nat.not_lt_zero _) }

theorem stateInv_hardwareReset {s : State} (h : StateInv s) : StateInv (hardwareReset s) :=
  { stateInv_clearRegisters h with
    ibuf_wf := List.Pairwise.nil
    obuf_wf := List.Pairwise.nil
    ibuf_within := nofun
    obuf_within := nofun
    output_written := fun _ ha => absurd ha (Nat.not_lt_zero _) }

/-- A configuration write clears `READY`, so nothing is left to say of the construction. -/
theorem stateInv_configurationWrite {s : State} (h : StateInv s) (ip fp : Table) {key : List Byte}
    (hkey : key.length ≤ s.params.keyMax) :
    StateInv { s with key := key, ip := ip, fp := fp, ready := false } :=
  { h with construction := nofun, klen_le := hkey }

theorem stateInv_init {s : State} (h : StateInv s) (hip : validTable s.ip) (hfp : validTable s.fp)
    (hkey : 0 < s.key.length) :
    StateInv { s with
      rk := schedule s.key hkey, ipi := invertTable s.ip hip, fpi := invertTable s.fp hfp, ready := true } :=
  { h with construction := fun _ => ⟨hip, hfp, hkey, rfl, rfl, rfl⟩ }

theorem stateInv_blk {s : State} (h : StateInv s) (B : Block) : StateInv { s with blk := B } :=
  { h with }

theorem stateInv_wrbuf {s : State} (h : StateInv s) {a : Nat} (ha : a < s.params.bufMax) (d : Byte) :
    StateInv { s with ibuf := s.ibuf.write a d } :=
  { h with
    ibuf_wf := Memory.wf_write h.ibuf_wf a d
    ibuf_within := fun c hc => (Memory.mem_write hc).elim (fun hca => hca ▸ ha) (h.ibuf_within c) }

theorem stateInv_run {s : State} (h : StateInv s) (dir : BitVec 1) (hlen : s.len.toNat % 8 = 0) :
    StateInv { s with obuf := runBlocks s dir (s.len.toNat / 8), olen := s.len } := by
  have hwhole : 8 * (s.len.toNat / 8) = s.len.toNat := by omega
  exact { h with
    olen_le := h.len_le
    olen_aligned := hlen
    obuf_wf := wf_runBlocks h.obuf_wf dir _
    obuf_within := fun c hc =>
      (mem_runBlocks hc).elim (fun hlt => (hlt.trans_eq hwhole).trans_le h.len_le) (h.obuf_within c)
    output_written := fun a ha => by simp [lookup_runBlocks, hwhole, show a < s.len.toNat from ha] }

/-! ## Every step -/

theorem stateInv_of_succeeds {s u : State} {i : Instr} {d : Word} (h : StateInv s) (hs : Succeeds s i d u) :
    StateInv u := by
  cases hs with
  | nop | rdcr | rdrk | rdblk | rdobuf => exact h
  | srst => exact stateInv_clearRegisters h
  | clrerr => exact stateInv_clearLatch h
  | keyclr => exact stateInv_configurationWrite h s.ip s.fp (Nat.zero_le _)
  | keypush hroom =>
    have hlt : s.klen < s.params.keyMax := lt_of_le_of_ne h.klen_le hroom
    exact stateInv_configurationWrite h s.ip s.fp (List.length_append.trans_le hlt)
  | ldip => exact stateInv_configurationWrite h _ s.fp h.klen_le
  | ldfp => exact stateInv_configurationWrite h s.ip _ h.klen_le
  | init hip hfp hkey => exact stateInv_init h hip hfp hkey
  | permip | permfp | permipi | permfpi | round | ldblk | xform => exact stateInv_blk h _
  | wrbuf ha => exact stateInv_wrbuf h ha _
  | setlen hn => exact { h with len_le := hn }
  | run _ hlen => exact stateInv_run h _ hlen

theorem stateInv_of_exec {i : Instr} {s t : State} (h : StateInv s) (hexec : exec i s = .next t) : StateInv t := by
  obtain ⟨e, -, rfl⟩ | ⟨d, u, hu, rfl⟩ := exec_cases hexec
  · exact stateInv_afterError h e
  · exact stateInv_afterOk (stateInv_of_succeeds h hu) d

/-- Everything a step can do: nothing, a hardware reset, a command, or the error of a word that is no command. -/
theorem step_cases {s t : State} (h : step s = .next t) :
    (s.port = [] ∧ t = s) ∨
    (∃ rest, s.port = .hardwareReset :: rest ∧ t = hardwareReset { s with port := rest }) ∨
    (∃ cw rest i, s.port = .command cw :: rest ∧ decode cw = .command i ∧ exec i { s with port := rest } = .next t) ∨
    ∃ cw rest why, s.port = .command cw :: rest ∧ decode cw = .illegal why ∧
      t = afterError (illegalError why) { s with port := rest } := by
  cases hport : s.port with
  | nil => exact .inl ⟨rfl, Host.Outcome.next.inj (h.symm.trans (step_of_empty hport))⟩
  | cons event rest =>
    cases event with
    | hardwareReset =>
      exact .inr (.inl ⟨rest, rfl, Host.Outcome.next.inj (h.symm.trans (step_of_hardwareReset hport))⟩)
    | command cw =>
      cases hd : decode cw with
      | command i => exact .inr (.inr (.inl ⟨cw, rest, i, rfl, hd, (step_of_command hport hd).symm.trans h⟩))
      | illegal why =>
        have hstep := (step_of_illegal hport hd).trans (illegalCommand_eq why _)
        exact .inr (.inr (.inr ⟨cw, rest, why, rfl, hd, Host.Outcome.next.inj (h.symm.trans hstep)⟩))

/-- Settles O58: an idle step keeps the state, a reset clears it, and a command writes what its success or its error
does. -/
theorem everyStepKeepsTheInvariant : Obligations.EveryStepKeepsTheInvariant := by
  intro s t h hstep
  obtain ⟨-, rfl⟩ | ⟨rest, -, rfl⟩ | ⟨cw, rest, i, -, -, hexec⟩ | ⟨cw, rest, why, -, -, rfl⟩ := step_cases hstep
  · exact h
  · exact stateInv_hardwareReset (stateInv_takeEvent h rest)
  · exact stateInv_of_exec (stateInv_takeEvent h rest) hexec
  · exact stateInv_afterError (stateInv_takeEvent h rest) _

/-! ## Every reachable state -/

/-- Settles O57: after reset the lengths, the latch and both buffers are empty and `READY` is 0. -/
theorem resetMeetsTheInvariant : Obligations.ResetMeetsTheInvariant := fun p hp =>
  { construction := nofun
    klen_le := Nat.zero_le _
    len_le := Nat.zero_le _
    olen_le := Nat.zero_le _
    olen_aligned := rfl
    errInfo_zero := fun _ => rfl
    params_wf := hp
    err_le := Nat.zero_le 5
    ibuf_wf := reset_ibuf_wf p
    obuf_wf := reset_obuf_wf p
    ibuf_within := nofun
    obuf_within := nofun
    output_written := fun _ ha => absurd ha (Nat.not_lt_zero _) }

/-- Every step answers a next state. -/
theorem exists_step (s : State) : ∃ t, step s = .next t := by
  cases hport : s.port with
  | nil => exact ⟨s, step_of_empty hport⟩
  | cons event rest =>
    cases event with
    | hardwareReset => exact ⟨_, step_of_hardwareReset hport⟩
    | command cw =>
      obtain ⟨t, -, ht, -⟩ := everyCommandWordIsAnswered s cw rest hport
      exact ⟨t, ht⟩

/-- What every step keeps holds after any number of steps. -/
theorem exists_runSteps_of_invariant {P : State → Prop} (hkeep : ∀ s t, P s → step s = .next t → P t) (n : Nat)
    {s : State} (h : P s) : ∃ t, runSteps n s = .next t ∧ P t := by
  induction n generalizing s with
  | zero => exact ⟨s, rfl, h⟩
  | succ n ih =>
    obtain ⟨u, hu⟩ := exists_step s
    rw [runSteps_succ n hu]
    exact ih (hkeep s u h hu)

/-- Settles O59: the invariant holds after reset, whatever stands on the port, and every step keeps it. -/
theorem reachableStatesAreConsistent : Obligations.ReachableStatesAreConsistent := by
  intro p events n hp
  obtain ⟨t, ht, hinv⟩ := exists_runSteps_of_invariant everyStepKeepsTheInvariant n
    (stateInv_takeEvent (resetMeetsTheInvariant p hp) events)
  exact ⟨t, ht, hinv.toSpecInv⟩

/-! ## The step itself -/

/-- Settles O1: the first event on the port decides what a step is. -/
theorem stepRunsTheDecodedCommand : Obligations.StepRunsTheDecodedCommand := fun _ _ _ _ =>
  ⟨fun hport hd _ => step_of_command hport hd, step_of_empty⟩

/-- Settles O2: each word is the encoding of its command. -/
theorem formatWordsDecodeAsWritten : Obligations.FormatWordsDecodeAsWritten :=
  ⟨decode_encode .init, decode_encode (.rdcr 10), decode_encode (.wrbuf 4095 0xFF), decode_encode (.rdobuf 8),
    decode_encode (.ldfp 7 1), decode_encode (.ldblk 3 0x43), decode_encode (.rdblk 1), decode_encode (.rdrk 1 7),
    decode_encode (.round 15), decode_encode (.run 1)⟩

/-- Settles O56: a hardware reset writes every register and both buffers, and counts itself. -/
theorem hardwareResetReturnsTheResetRegisters : Obligations.HardwareResetReturnsTheResetRegisters := fun _ _ hport =>
  ⟨_, step_of_hardwareReset hport, rfl⟩

end Sys2Proof.Machine

/-!
# What a host cannot observe (10_state.md sections 5 and 6)

States that differ only in RK, IPI and FPI while `READY` = 0 and in output bytes at or above `OLEN` answer the same and
go on to such states (R27, R28, R30, U11).
-/

namespace Sys2Proof.Machine

/-! ## What the two states have in common -/

section
variable {s t : State} (h : ObsEq s t)
include h

theorem klen_eq_of_obsEq : s.klen = t.klen := congrArg List.length h.key

theorem controlRegister_eq_of_obsEq (n : BitVec 8) : controlRegister s n = controlRegister t n := by
  simp only [controlRegister, statusWord, errorWord, klen_eq_of_obsEq h, h.ready, h.err, h.errInfo, h.len, h.olen, h.ip,
    h.fp, h.params]

/-- With `READY` = 1 both states hold the same tables and round keys, so they select the same transform. -/
theorem select_eq_of_obsEq (hready : s.ready = true) (dir : BitVec 1) : select s dir = select t dir := by
  funext B
  simp only [select, h.params, h.ip, h.fp, h.ipi hready, h.fpi hready, h.rk hready]

theorem blockAt_ibuf_eq_of_obsEq (k : Nat) : blockAt s .ibuf k = blockAt t .ibuf k :=
  congrArg Vector.ofFn (funext fun _ => byteAt_congr .ibuf _ h.ibuf h.resets)

end

/-! ## Writes both states make -/

theorem obsEq_afterOk {s t : State} (h : ObsEq s t) (d : Word) : ObsEq (afterOk d s) (afterOk d t) :=
  { h with resp := rfl }

theorem obsEq_afterError {s t : State} (h : ObsEq s t) (e : CommandError) :
    ObsEq (afterError e s) (afterError e t) := by
  rw [afterError_eq, afterError_eq]
  exact { h with err := by simp only [h.err], errInfo := by simp only [h.err, h.errInfo], resp := rfl }

theorem obsEq_takeEvent {s t : State} (h : ObsEq s t) (rest : List PortEvent) :
    ObsEq { s with port := rest } { t with port := rest } :=
  { h with port := rfl }

/-- What `SRST` leaves: only IBUF, the parameters, the port and the count of resets are as before. -/
theorem obsEq_clearRegisters {s t : State} (hibuf : s.ibuf = t.ibuf) (hparams : s.params = t.params)
    (hport : s.port = t.port) (hresp : s.resp = t.resp) (hresets : s.resets = t.resets) :
    ObsEq (clearRegisters s) (clearRegisters t) where
  key := rfl
  ip := rfl
  fp := rfl
  ready := rfl
  rk := nofun
  ipi := nofun
  fpi := nofun
  blk := rfl
  ibuf := hibuf
  len := rfl
  output := fun _ ha => absurd ha (Nat.not_lt_zero _)
  olen := rfl
  err := rfl
  errInfo := rfl
  params := hparams
  port := hport
  resp := hresp
  resets := hresets

theorem obsEq_hardwareReset {s t : State} (h : ObsEq s t) : ObsEq (hardwareReset s) (hardwareReset t) :=
  { obsEq_clearRegisters h.ibuf h.params h.port h.resp h.resets with
    ibuf := rfl
    output := fun _ ha => absurd ha (Nat.not_lt_zero _)
    resp := rfl
    resets := congrArg (· + 1) h.resets }

theorem obsEq_configurationWrite {s t : State} (h : ObsEq s t) {key key' : List Byte} {ip ip' fp fp' : Table}
    (hkey : key = key') (hip : ip = ip') (hfp : fp = fp') :
    ObsEq { s with key := key, ip := ip, fp := fp, ready := false }
      { t with key := key', ip := ip', fp := fp', ready := false } :=
  { h with key := hkey, ip := hip, fp := hfp, ready := rfl, rk := nofun, ipi := nofun, fpi := nofun }

theorem obsEq_blk {s t : State} (h : ObsEq s t) {B C : Block} (hB : B = C) :
    ObsEq { s with blk := B } { t with blk := C } :=
  { h with blk := hB }

/-- Below the new `OLEN` a `RUN` wrote every byte, from input the two states share. -/
theorem obsEq_run {s t : State} (h : ObsEq s t) (hready : s.ready = true) (dir : BitVec 1)
    (hlen : s.len.toNat % 8 = 0) :
    ObsEq { s with obuf := runBlocks s dir (s.len.toNat / 8), olen := s.len }
      { t with obuf := runBlocks t dir (t.len.toNat / 8), olen := t.len } := by
  refine { h with olen := h.len, output := fun a ha => ?_ }
  have hwritten : a < 8 * (s.len.toNat / 8) := by
    have : a < s.len.toNat := ha
    omega
  rw [byteAt_runBlocks_obuf, byteAt_runBlocks_obuf, ← h.len, if_pos hwritten, if_pos hwritten]
  simp only [select_eq_of_obsEq h hready, blockAt_ibuf_eq_of_obsEq h]

/-! ## Every step -/

theorem raises_of_obsEq {s t : State} (h : ObsEq s t) {i : Instr} {e : CommandError} (hs : Raises s i e) :
    Raises t i e := by
  cases hs with
  | notReady hneeds hno => exact .notReady hneeds (h.ready ▸ hno)
  | registerNumber hn => exact .registerNumber hn
  | keyStoreFull hfull => exact .keyStoreFull (by rw [← klen_eq_of_obsEq h, ← h.params, hfull])
  | ipNotBijective hno => exact .ipNotBijective (h.ip ▸ hno)
  | fpNotBijective hip hno => exact .fpNotBijective (h.ip ▸ hip) (h.fp ▸ hno)
  | emptyKey hip hfp hkey => exact .emptyKey (h.ip ▸ hip) (h.fp ▸ hfp) (h.key ▸ hkey)
  | inputAddress ha => exact .inputAddress (h.params ▸ ha)
  | outputAddress ha => exact .outputAddress (h.olen ▸ ha)
  | length hn => exact .length (h.params ▸ hn)
  | misaligned hready hlen =>
    rw [h.len] at hlen ⊢
    exact .misaligned (h.ready ▸ hready) hlen

theorem succeeds_of_obsEq {s t u : State} (h : ObsEq s t) {i : Instr} {d : Word} (hs : Succeeds s i d u) :
    ∃ v, Succeeds t i d v ∧ ObsEq u v := by
  cases hs with
  | nop => exact ⟨_, .nop, h⟩
  | srst => exact ⟨_, .srst, obsEq_clearRegisters h.ibuf h.params h.port h.resp h.resets⟩
  | clrerr => exact ⟨_, .clrerr, { h with err := rfl, errInfo := rfl }⟩
  | rdcr hv => exact ⟨_, .rdcr ((controlRegister_eq_of_obsEq h _).symm.trans hv), h⟩
  | keyclr => exact ⟨_, .keyclr, obsEq_configurationWrite h rfl h.ip h.fp⟩
  | keypush hroom =>
    rw [klen_eq_of_obsEq h, h.params] at hroom
    exact ⟨_, .keypush hroom, obsEq_configurationWrite h (by rw [h.key]) h.ip h.fp⟩
  | ldip => exact ⟨_, .ldip, obsEq_configurationWrite h h.key (by rw [h.ip]) h.fp⟩
  | ldfp => exact ⟨_, .ldfp, obsEq_configurationWrite h h.key h.ip (by rw [h.fp])⟩
  | init hip hfp hkey =>
    refine ⟨_, .init (h.ip ▸ hip) (h.fp ▸ hfp) (h.key ▸ hkey), ?_⟩
    exact { h with
      ready := rfl
      rk := fun _ => by simp only [h.key]
      ipi := fun _ => by simp only [h.ip]
      fpi := fun _ => by simp only [h.fp] }
  | permip hready => exact ⟨_, .permip (h.ready ▸ hready), obsEq_blk h (by rw [h.ip, h.blk])⟩
  | permfp hready => exact ⟨_, .permfp (h.ready ▸ hready), obsEq_blk h (by rw [h.fp, h.blk])⟩
  | permipi hready => exact ⟨_, .permipi (h.ready ▸ hready), obsEq_blk h (by rw [h.ipi hready, h.blk])⟩
  | permfpi hready => exact ⟨_, .permfpi (h.ready ▸ hready), obsEq_blk h (by rw [h.fpi hready, h.blk])⟩
  | rdrk hready =>
    rw [h.rk hready]
    exact ⟨_, .rdrk (h.ready ▸ hready), h⟩
  | round hready => exact ⟨_, .round (h.ready ▸ hready), obsEq_blk h (by rw [h.rk hready, h.blk])⟩
  | ldblk => exact ⟨_, .ldblk, obsEq_blk h (by rw [h.blk])⟩
  | rdblk =>
    rw [h.blk]
    exact ⟨_, .rdblk, h⟩
  | xform hready =>
    exact ⟨_, .xform (h.ready ▸ hready), obsEq_blk h (by rw [select_eq_of_obsEq h hready, h.blk])⟩
  | wrbuf ha => exact ⟨_, .wrbuf (h.params ▸ ha), { h with ibuf := by simp only [h.ibuf] }⟩
  | setlen hn => exact ⟨_, .setlen (h.params ▸ hn), { h with len := rfl }⟩
  | run hready hlen =>
    have hdata : s.len.setWidth 32 = t.len.setWidth 32 := congrArg _ h.len
    rw [hdata]
    exact ⟨_, .run (h.ready ▸ hready) (h.len ▸ hlen), obsEq_run h hready _ hlen⟩
  | rdobuf ha =>
    rw [h.output _ ha]
    exact ⟨_, .rdobuf (h.olen ▸ ha), h⟩

theorem exec_of_obsEq {s t : State} (h : ObsEq s t) (i : Instr) :
    ∃ s' t', exec i s = .next s' ∧ exec i t = .next t' ∧ ObsEq s' t' := by
  obtain ⟨e, he⟩ | ⟨d, u, hu⟩ := raises_or_succeeds s i
  · exact ⟨_, _, exec_of_raises he, exec_of_raises (raises_of_obsEq h he), obsEq_afterError h e⟩
  · obtain ⟨v, hv, huv⟩ := succeeds_of_obsEq h hu
    exact ⟨_, _, exec_of_succeeds hu, exec_of_succeeds hv, obsEq_afterOk huv d⟩

/-- Settles O60: the port holds the same event for both, and a command raises the same error or succeeds alike. -/
theorem hiddenStateIsUnobservable : Obligations.HiddenStateIsUnobservable := by
  intro s t h
  cases hport : s.port with
  | nil => exact ⟨s, t, step_of_empty hport, step_of_empty (h.port ▸ hport), h⟩
  | cons event rest =>
    have hport' : t.port = event :: rest := h.port ▸ hport
    have htaken := obsEq_takeEvent h rest
    cases event with
    | hardwareReset =>
      exact ⟨_, _, step_of_hardwareReset hport, step_of_hardwareReset hport', obsEq_hardwareReset htaken⟩
    | command cw =>
      cases hd : decode cw with
      | command i =>
        rw [step_of_command hport hd, step_of_command hport' hd]
        exact exec_of_obsEq htaken i
      | illegal why =>
        rw [step_of_illegal hport hd, step_of_illegal hport' hd, illegalCommand_eq, illegalCommand_eq]
        exact ⟨_, _, rfl, rfl, obsEq_afterError htaken _⟩

/-! ## `SRST` (R101) -/

/-- Settles O10: `SRST` clears every register that two such states may differ in, and both then answer alike. -/
theorem srstErasesTheKey : Obligations.SrstErasesTheKey := by
  intro s t hibuf hparams hport hresets
  have hcleared : ObsEq (clearRegisters { s with resp := none }) (clearRegisters { t with resp := none }) :=
    obsEq_clearRegisters hibuf hparams hport rfl hresets
  exact ⟨_, _, exec_srst s, exec_srst t, obsEq_afterOk hcleared 0⟩

end Sys2Proof.Machine

/-!
# The assembler, `SRST` and `INIT` (30_encoding.md section 5, 40_config_and_status.md sections 1 and 3)

That no operand is cut (R88), what `SRST` clears (R101), which tables are valid (R121), and the construction with its
checks (R108, R109).
-/

namespace Sys2Proof.Machine

/-! ## The assembler (R88) -/

theorem operandsFit_nil_iff (ops : List Nat) : operandsFit [] ops = true ↔ ops = [] := by
  cases ops <;> simp [operandsFit]

theorem operandsFit_cons_iff (w : Nat) (ws ops : List Nat) :
    operandsFit (w :: ws) ops = true ↔ ∃ v vs, ops = v :: vs ∧ v < 2 ^ w ∧ operandsFit ws vs = true := by
  cases ops <;> simp [operandsFit]

/-- Settles O7: the mnemonic's widths give the number of operands and a bound for each, under which no field cuts
one. -/
theorem assemblerKeepsTheOperands : Obligations.AssemblerKeepsTheOperands := by
  intro ⟨m, ops⟩ i h
  obtain ⟨hfit, hbuild⟩ := Option.ite_none_right_eq_some.mp h
  unfold Source.wellFormed at hfit
  cases m <;> simp only [Mnemonic.widths, operandsFit_cons_iff, operandsFit_nil_iff] at hfit
  case ldip | ldfp | rdrk | ldblk | wrbuf =>
    obtain ⟨u, _, rfl, hu, v, _, rfl, hv, rfl⟩ := hfit
    cases hbuild
    simp only [Instr.toSource, BitVec.toNat_ofNat, Nat.mod_eq_of_lt hu, Nat.mod_eq_of_lt hv]
  case rdcr | keypush | round | rdblk | xform | setlen | run | rdobuf =>
    obtain ⟨v, _, rfl, hv, rfl⟩ := hfit
    cases hbuild
    simp only [Instr.toSource, BitVec.toNat_ofNat, Nat.mod_eq_of_lt hv]
  all_goals
    subst hfit
    cases hbuild
    rfl

/-! ## `SRST` (R101, R242) -/

/-- Settles O9: `clearRegisters` writes zeros to the registers and leaves both buffers. -/
theorem srstClearsRegistersAndKeepsBuffers : Obligations.SrstClearsRegistersAndKeepsBuffers :=
  ⟨rfl, fun s => ⟨_, exec_srst s, rfl, rfl, getElem_resetWith s.params, rfl, rfl, rfl, rfl, rfl,
    sameBytes_of_memory rfl rfl rfl, rfl⟩⟩

/-! ## Valid tables (R121) -/

/-- Settles O17: a valid table names every offset, and a table that names each position once has distinct entries. -/
theorem validTableIsABijection : Obligations.ValidTableIsABijection := by
  intro T
  constructor
  · refine fun h => ⟨h.1, fun p hlo hhi => ?_⟩
    obtain ⟨i, hi⟩ := sourceOffset_surjective T h ⟨p - 1, by omega⟩
    have hpos : 1 ≤ T[i].toNat ∧ T[i].toNat ≤ 8 := h.1 i
    have hsub : T[i].toNat - 1 = p - 1 := congrArg Fin.val hi
    have hentry : T[i].toNat = p := by omega
    exact ⟨i, hentry, fun k hk => validTable_inj h (hk.trans hentry.symm)⟩
  · rintro ⟨hrange, honce⟩
    refine ⟨hrange, fun i k hik heq => hik ?_⟩
    exact (honce T[k].toNat (hrange k).1 (hrange k).2).unique (congrArg BitVec.toNat heq) rfl

/-! ## `INIT` (R108, R109, R122, R140) -/

/-- The byte of the schedule, looked up in the key (R140). -/
theorem getElem?_key_eq_schedule (K : List Byte) (h : 0 < K.length) (i : Fin 16) (j : Fin 8) :
    K[(i.val + j.val) % K.length]? = some ((schedule K h)[i])[j] :=
  (List.getElem?_eq_getElem (Nat.mod_lt _ h)).trans (congrArg some (getElem_schedule K h i j i.isLt j.isLt).symm)

/-- The entry of the inverse table, looked up by position (R122). -/
theorem getElem?_invertTable (T : Table) (h : validTable T) (i : Fin 8) :
    (invertTable T h)[T[i].toNat - 1]? = some (BitVec.ofNat 4 (i.val + 1)) :=
  (Vector.getElem?_eq_getElem (sourceOffset T h i).isLt).trans (congrArg some (getElem_invertTable T h i))

/-- Settles O18: the three checks pass, and the construction writes what `schedule` and `invertTable` give. -/
theorem initDerivesKeysAndInverseTables : Obligations.InitDerivesKeysAndInverseTables :=
  ⟨rfl, fun s hip hfp hkey => ⟨_, exec_init_ok s hip hfp hkey, getElem?_key_eq_schedule s.key hkey,
    getElem?_invertTable s.ip hip, getElem?_invertTable s.fp hfp, sameBytes_of_memory rfl rfl rfl, rfl⟩⟩

/-- Settles O19: the first check that fails raises its error. -/
theorem initReportsTheFirstBadPart : Obligations.InitReportsTheFirstBadPart := by
  intro s hbad
  by_cases hip : validTable s.ip
  · by_cases hfp : validTable s.fp
    · have hklen : s.klen = 0 := (hbad.resolve_left (not_not.mpr hip)).resolve_left (not_not.mpr hfp)
      refine ⟨_, exec_init_of_empty_key hip hfp (List.length_eq_zero_iff.mp hklen), ?_⟩
      rw [if_neg (not_not.mpr hip), if_neg (not_not.mpr hfp)]
      exact failsWith_afterError .emptyKey s
    · refine ⟨_, exec_init_of_not_validTable_fp hip hfp, ?_⟩
      rw [if_neg (not_not.mpr hip), if_pos hfp]
      exact failsWith_afterError .fpNotBijective s
  · refine ⟨_, exec_init_of_not_validTable_ip hip, ?_⟩
    rw [if_pos hip]
    exact failsWith_afterError .ipNotBijective s

/-- Settles O20: the construction that `INIT` makes is the one the invariant says the engine holds. -/
theorem initWhileReadyChangesNothing : Obligations.InitWhileReadyChangesNothing := by
  intro s hinv hready
  obtain ⟨hip, hfp, hkey, hrk, hipi, hfpi⟩ := hinv.construction hready
  rw [exec_init_ok s hip hfp hkey, afterInit, ← hrk, ← hipi, ← hfpi, ← hready]
  rfl

end Sys2Proof.Machine

/-!
# The cipher's laws (41_permutation.md to 44_block_engine.md)

The properties of `permute` (R128), of the schedule (R142, R143) and of the block transform (R175 to R178).
-/

namespace Sys2Proof.Machine

/-! ## `PERMIPI` and `PERMFPI` (R126, R127) -/

/-- A pass of BLK through an inverse table puts byte `i` where the table's entry `i` points. -/
theorem permuteBlk_scatters {s : State} {T : Table} (hready : s.ready = true) (hT : validTable T) :
    ∃ t, permuteBlk (invertTable T hT) s = .next t ∧ (∀ i : Fin 8, t.blk[T[i].toNat - 1]? = some s.blk[i]) ∧
      sameBytes s t ∧ t = { s with blk := t.blk, resp := some ⟨0, 0⟩ } :=
  ⟨_, permuteBlk_of_ready _ hready,
    fun i => (Vector.getElem?_eq_getElem (sourceOffset T hT i).isLt).trans
      (congrArg some (getElem_permute_invertTable T hT s.blk i)),
    sameBytes_of_memory rfl rfl rfl, rfl⟩

/-- Settles O25: the stored inverse tables are those of the configuration, and BLK passes through them. -/
theorem inversePermutationsScatterThroughTheTables : Obligations.InversePermutationsScatterThroughTheTables := by
  refine ⟨rfl, rfl, fun s hready hconstructed => ?_⟩
  obtain ⟨hip, hfp, -, -, hipi, hfpi⟩ := hconstructed
  have hpermipi : exec .permipi s = permuteBlk (invertTable s.ip hip) s := hipi ▸ rfl
  have hpermfpi : exec .permfpi s = permuteBlk (invertTable s.fp hfp) s := hfpi ▸ rfl
  rw [hpermipi, hpermfpi]
  exact ⟨permuteBlk_scatters hready hip, permuteBlk_scatters hready hfp⟩

/-! ## `permute` (R128) -/

/-- The identity table of R128 (a). -/
theorem validTable_identity : validTable #v[1, 2, 3, 4, 5, 6, 7, 8] := by
  decide

theorem sourceOffset_identity : ∀ i : Fin 8, sourceOffset #v[1, 2, 3, 4, 5, 6, 7, 8] validTable_identity i = i := by
  decide

theorem permute_identity (B : Block) : permute #v[1, 2, 3, 4, 5, 6, 7, 8] B = B :=
  ext_offsets fun i => (getElem_permute_valid _ validTable_identity B i).trans
    (congrArg (fun k : Fin 8 => B[k]) (sourceOffset_identity i))

theorem eq_ofFn_of_offsets {α : Type} {v : Vector α 8} {f : Fin 8 → α} (h : ∀ i : Fin 8, v[i] = f i) :
    v = Vector.ofFn f :=
  ext_offsets fun i => (h i).trans (Vector.getElem_ofFn (f := f) i.isLt).symm

/-- The permutation of the offsets that a valid table is. -/
noncomputable def offsetPerm (T : Table) (h : validTable T) : Equiv.Perm (Fin 8) :=
  Equiv.ofBijective (sourceOffset T h) ⟨sourceOffset_injective T h, sourceOffset_surjective T h⟩

/-- A valid table permutes the offsets, so the bytes stay and their order changes. -/
theorem toList_permute_perm (T : Table) (h : validTable T) (B : Block) : (permute T B).toList.Perm B.toList := by
  have hpermute : permute T B = Vector.ofFn fun i => B[offsetPerm T h i] :=
    eq_ofFn_of_offsets (getElem_permute_valid T h B)
  have hself : B = Vector.ofFn fun i : Fin 8 => B[i] := eq_ofFn_of_offsets fun _ => rfl
  rw [hpermute, Vector.toList_ofFn]
  conv_rhs => rw [hself, Vector.toList_ofFn]
  exact (offsetPerm T h).ofFn_comp_perm fun i => B[i]

theorem permute_xorBlock (T : Table) (h : validTable T) (A B : Block) :
    permute T (xorBlock A B) = xorBlock (permute T A) (permute T B) := by
  refine ext_offsets fun i => ?_
  have hxor (C D : Block) (k : Fin 8) : (xorBlock C D)[k] = C[k] ^^^ D[k] := getElem_xorBlock C D k k.isLt
  rw [hxor, getElem_permute_valid T h, getElem_permute_valid T h, getElem_permute_valid T h, hxor]

/-- Two tables in a row are one, whose entry `i` is the first table's entry at the position that the second names. -/
theorem permute_permute {T U W : Table} (hT : validTable T) (hU : validTable U)
    (hW : ∀ i : Fin 8, T[U[i].toNat - 1]? = some W[i]) (B : Block) : permute U (permute T B) = permute W B := by
  refine ext_offsets fun i => Option.some.inj ?_
  have hentry : T[sourceOffset U hU i] = W[i] :=
    Option.some.inj ((Vector.getElem?_eq_getElem (sourceOffset U hU i).isLt).symm.trans (hW i))
  have hpos : namesPosition W[i] := hentry ▸ hT.1 (sourceOffset U hU i)
  calc some (permute U (permute T B))[i] = some (permute T B)[sourceOffset U hU i] := by
        rw [getElem_permute_valid U hU]
    _ = B[W[i].toNat - 1]? := by rw [← hentry, getElem?_position_eq_permute hT]
    _ = some (permute W B)[i] := by
      have hget : (permute W B)[i] = _ := getElem_permute W B i i.isLt hpos
      rw [hget]
      exact Vector.getElem?_eq_getElem _

/-- Settles O27: each of the four properties by the offset that an entry names. -/
theorem permuteIsALinearRearrangement : Obligations.PermuteIsALinearRearrangement :=
  ⟨permute_identity, fun T h =>
    ⟨toList_permute_perm T h, permute_xorBlock T h, fun _ _ hU hW => permute_permute h hU hW⟩⟩

/-! ## The schedule (R142, R143) -/

/-- Settles O29: the byte of a round key depends on the sum of round and offset, at most 22, modulo the key's length. -/
theorem roundKeysAreARotatingWindow : Obligations.RoundKeysAreARotatingWindow := by
  intro K h
  refine ⟨fun i j => ?_, fun i hi => ?_, fun K' h' hK hK' htake => ?_⟩
  · have hsum : i.val + 1 + j.val = i.val + (j.val + 1) := by omega
    simp only [getElem_schedule, hsum]
  · have hsum (j : Nat) : i + K.length + j = i + j + K.length := by omega
    ext j hj : 1
    simp only [getElem_schedule, hsum, Nat.add_mod_right]
  · ext i hi j hj : 2
    have hlt : i + j < 23 := by omega
    have hbyte : K[i + j]? = K'[i + j]? := by
      rw [← List.getElem?_take_of_lt hlt, htake, List.getElem?_take_of_lt hlt]
    rw [getElem_schedule, getElem_schedule]
    simp only [Nat.mod_eq_of_lt (show i + j < K.length by omega), Nat.mod_eq_of_lt (show i + j < K'.length by omega)]
    rw [List.getElem?_eq_getElem (by omega), List.getElem?_eq_getElem (by omega)] at hbyte
    exact (Option.some.inj hbyte).symm

/-! ## The rounds as one mask (R177) -/

/-- Round keys that repeat after eight rounds cancel out. -/
theorem maskOf_eq_zero {RK : RoundKeys} (h : RK.toList.drop 8 = RK.toList.take 8) :
    maskOf RK = Vector.replicate 8 0 := by
  have hsplit : RK.toList = RK.toList.take 8 ++ RK.toList.take 8 := by
    conv_lhs => rw [← List.take_append_drop 8 RK.toList, h]
  have hrounds : maskOf RK = (RK.toList.take 8 ++ RK.toList.take 8).foldl roundBlock (Vector.replicate 8 0) := by
    rw [← hsplit]
    rfl
  rw [hrounds, List.foldl_append, foldl_roundBlock, foldl_roundBlock, xorBlock_self_right]

/-- A key whose length divides 8 has a schedule that repeats after eight rounds. -/
theorem maskOf_schedule_eq_zero {K : List Byte} (h : 0 < K.length) (hdvd : K.length ∣ 8) :
    maskOf (schedule K h) = Vector.replicate 8 0 := by
  refine maskOf_eq_zero (List.ext_getElem (by simp) fun i hi _ => ?_)
  have hi8 : i < 8 := by simpa using hi
  obtain ⟨q, hq⟩ := hdvd
  have hmod (j : Nat) : (8 + i + j) % K.length = (i + j) % K.length := by
    rw [Nat.add_assoc, hq, Nat.mul_add_mod]
  rw [List.getElem_drop, List.getElem_take, Vector.getElem_toList, Vector.getElem_toList]
  ext j hj : 1
  simp only [getElem_schedule, hmod]

/-- Settles O36: rounds merge into one mask, and the lengths 1, 2, 4 and 8 divide 8, so that their mask is zero. -/
theorem sixteenRoundsAreOneMask : Obligations.SixteenRoundsAreOneMask := by
  have hmask (B : Block) (IP FP : Table) (RK : RoundKeys) :
      engineFwd B IP FP RK = permute FP (xorBlock (permute IP B) (maskOf RK)) :=
    congrArg (permute FP) (foldl_roundBlock RK.toList _)
  refine ⟨hmask, fun K h hlen B IP FP => ?_⟩
  have hdvd : K.length ∣ 8 := (by decide : ∀ n ∈ [1, 2, 4, 8], n ∣ 8) K.length hlen
  rw [hmask, maskOf_schedule_eq_zero h hdvd, xorBlock_zero]

/-! ## The inverse transform (R175, R176, R178) -/

/-- The rounds in reverse undo the rounds. -/
theorem foldl_roundBlock_reverse (Ks : List Block) (B : Block) :
    Ks.reverse.foldl roundBlock (Ks.foldl roundBlock B) = B := by
  induction Ks generalizing B with
  | nil => rfl
  | cons K Ks ih =>
    rw [List.reverse_cons, List.foldl_append]
    show roundBlock (Ks.reverse.foldl roundBlock (Ks.foldl roundBlock (roundBlock B K))) K = B
    rw [ih]
    exact roundBlock_roundBlock_self B K

theorem engineInv_engineFwd {IP FP : Table} (hip : validTable IP) (hfp : validTable FP) (RK : RoundKeys) (B : Block) :
    engineInv (engineFwd B IP FP RK) (invertTable IP hip) (invertTable FP hfp) RK = B := by
  unfold engineInv engineFwd
  rw [permute_invertTable_permute FP hfp, foldl_roundBlock_reverse, permute_invertTable_permute IP hip]

theorem engineFwd_engineInv {IP FP : Table} (hip : validTable IP) (hfp : validTable FP) (RK : RoundKeys) (B : Block) :
    engineFwd (engineInv B (invertTable IP hip) (invertTable FP hfp) RK) IP FP RK = B := by
  have hrounds (C : Block) : RK.toList.foldl roundBlock (RK.toList.reverse.foldl roundBlock C) = C := by
    simpa using foldl_roundBlock_reverse RK.toList.reverse C
  unfold engineInv engineFwd
  rw [permute_permute_invertTable IP hip, hrounds, permute_permute_invertTable FP hfp]

/-- Settles O37: each stage of the one transform undoes the stage of the other that it meets. -/
theorem engineInverseUndoesEngineForward : Obligations.EngineInverseUndoesEngineForward := fun IP FP hip hfp RK =>
  ⟨engineInv_engineFwd hip hfp RK, engineFwd_engineInv hip hfp RK,
    Function.bijective_iff_has_inverse.mpr
      ⟨fun B => engineInv B (invertTable IP hip) (invertTable FP hfp) RK,
        engineInv_engineFwd hip hfp RK, engineFwd_engineInv hip hfp RK⟩⟩

/-- Settles O39: the tables of the two passes undo each other, and the mask between them cancels. -/
theorem mutualInverseTablesUndoThemselves : Obligations.MutualInverseTablesUndoThemselves := by
  intro IP hip RK B
  unfold engineFwd
  rw [permute_permute_invertTable IP hip, foldl_roundBlock, foldl_roundBlock, xorBlock_self_right,
    permute_invertTable_permute IP hip]

/-- With the construction held, the transform of `dir` = 1 under `INVERSE` undoes that of `dir` = 0. -/
theorem select_one_select_zero {s : State} (hc : constructed s) (hmode : s.params.decMode = .inverse) (B : Block) :
    select s 1 (select s 0 B) = B := by
  obtain ⟨hip, hfp, -, -, hipi, hfpi⟩ := hc
  rw [select_of_inverse ⟨hmode, rfl⟩, select_of_not_inverse (by simp), hipi, hfpi]
  exact engineInv_engineFwd hip hfp s.rk B

/-- Settles O38: the first `XFORM` leaves all that the second selects its transform by. -/
theorem inverseModeRoundTripOnTheBlock : Obligations.InverseModeRoundTripOnTheBlock := by
  intro s hinv hready hmode
  have hback := select_one_select_zero (hinv.construction hready) hmode s.blk
  refine ⟨_, _, exec_xform_of_ready 0 hready, exec_xform_of_ready 1 hready, ?_⟩
  exact congrArg (fun B => afterOk 0 { s with blk := B }) hback

end Sys2Proof.Machine

/-!
# Sequences of commands (43_round_function.md section 2, 70_reset_and_hazards.md section 2)

The stage commands against `XFORM 0` (R162, R170, R171), and the bring-up sequence (R243).
-/

namespace Sys2Proof.Machine

/-! ## What a sequence does, whatever follows it on the port -/

/-- The command takes `s` to `t`, whatever the port holds. -/
def Does (i : Instr) (s t : State) : Prop := ∀ port, exec i { s with port := port } = .next { t with port := port }

/-- The commands, presented one after the other, take `s` to `t` and leave the rest of the port. -/
def DoesAll (is : List Instr) (s t : State) : Prop :=
  ∀ rest, runSteps is.length { s with port := commands is ++ rest } = .next { t with port := rest }

theorem doesAll_nil (s : State) : DoesAll [] s s := fun _ => rfl

theorem doesAll_cons {i : Instr} {is : List Instr} {s t u : State} (hi : Does i s t) (his : DoesAll is t u) :
    DoesAll (i :: is) s u := fun rest => by
  have hstep : step { s with port := commands (i :: is) ++ rest } = .next { t with port := commands is ++ rest } :=
    (step_of_command rfl (decode_encode i)).trans (hi _)
  rw [List.length_cons, runSteps_succ _ hstep]
  exact his rest

theorem doesAll_singleton {i : Instr} {s t : State} (h : Does i s t) : DoesAll [i] s t := doesAll_cons h (doesAll_nil t)

theorem doesAll_append {is js : List Instr} {s t u : State} (his : DoesAll is s t) (hjs : DoesAll js t u) :
    DoesAll (is ++ js) s u := fun rest => by
  have hfirst : runSteps is.length { s with port := commands (is ++ js) ++ rest } =
      .next { t with port := commands js ++ rest } := by
    simpa [commands] using his (commands js ++ rest)
  rw [List.length_append, runSteps_add _ _ hfirst]
  exact hjs rest

/-- A state on whose port the commands stand runs them. -/
theorem runSteps_of_doesAll {is : List Instr} {s t : State} {rest : List PortEvent} (h : DoesAll is s t)
    (hport : s.port = commands is ++ rest) : runSteps is.length s = .next { t with port := rest } := by
  have hrun := h rest
  rwa [← hport] at hrun

/-! ## The commands of the two sequences -/

theorem does_ldip (s : State) (idx : BitVec 3) (val : BitVec 4) :
    Does (.ldip idx val) s (afterOk 0 { s with ip := setOffset s.ip idx val, ready := false }) :=
  fun port => exec_ldip idx val { s with port := port }

theorem does_ldfp (s : State) (idx : BitVec 3) (val : BitVec 4) :
    Does (.ldfp idx val) s (afterOk 0 { s with fp := setOffset s.fp idx val, ready := false }) :=
  fun port => exec_ldfp idx val { s with port := port }

theorem does_keyclr (s : State) : Does .keyclr s (afterOk 0 { s with key := [], ready := false }) :=
  fun port => exec_keyclr { s with port := port }

theorem does_keypush {s : State} (d : BitVec 8) (h : s.klen ≠ s.params.keyMax) :
    Does (.keypush d) s (afterOk 0 { s with key := s.key ++ [d], ready := false }) :=
  fun port => exec_keypush_room (s := { s with port := port }) d h

theorem does_init (s : State) (hip : validTable s.ip) (hfp : validTable s.fp) (hkey : 0 < s.key.length) :
    Does .init s (afterInit s hip hfp hkey) :=
  fun port => exec_init_ok { s with port := port } hip hfp hkey

theorem does_permip {s : State} (h : s.ready = true) :
    Does .permip s (afterOk 0 { s with blk := permute s.ip s.blk }) :=
  fun port => permuteBlk_of_ready (s := { s with port := port }) s.ip h

theorem does_permfp {s : State} (h : s.ready = true) :
    Does .permfp s (afterOk 0 { s with blk := permute s.fp s.blk }) :=
  fun port => permuteBlk_of_ready (s := { s with port := port }) s.fp h

theorem does_round {s : State} (rnd : BitVec 4) (h : s.ready = true) :
    Does (.round rnd) s (afterOk 0 { s with blk := roundBlock s.blk (roundKey s.rk rnd) }) :=
  fun port => exec_round_of_ready (s := { s with port := port }) rnd h

/-! ## The stages of the transform (R162, R170, R171) -/

/-- An operand of four bits selects the round key of its number. -/
theorem roundKey_ofNat (rk : RoundKeys) (i : Fin 16) : roundKey rk (BitVec.ofNat 4 i.val) = rk[i.val] := by
  have hi : (BitVec.ofNat 4 i.val).toNat = i.val := Nat.mod_eq_of_lt i.isLt
  simp only [roundKey, hi]

/-- The first `n` round commands. -/
theorem doesAll_rounds {s : State} (h : s.ready = true) {n : Nat} (hn : n ≤ 16) :
    DoesAll ((List.range n).map fun i => .round (BitVec.ofNat 4 i)) (afterOk 0 s)
      (afterOk 0 { s with blk := blockAfterRounds s.rk s.blk n }) := by
  induction n with
  | zero => exact doesAll_nil _
  | succ n ih =>
    rw [List.range_succ, List.map_append, blockAfterRounds_succ s.rk s.blk ⟨n, hn⟩, ← roundKey_ofNat s.rk ⟨n, hn⟩]
    exact doesAll_append (ih (by omega)) (doesAll_singleton (does_round _ h))

/-- Settles O35: the stages in a row give the block of `engine_fwd`, which `XFORM 0` selects in either mode. -/
theorem stagesComposeToXform : Obligations.StagesComposeToXform := by
  intro s rest hready hport
  have hpermip := doesAll_singleton (does_permip hready)
  have hrounds := doesAll_rounds (s := { s with blk := permute s.ip s.blk }) hready le_rfl
  have hpermfp := doesAll_singleton
    (does_permfp (s := afterOk 0 { s with blk := blockAfterRounds s.rk (permute s.ip s.blk) 16 }) hready)
  have hstages := runSteps_of_doesAll (doesAll_append (doesAll_append hpermip hrounds) hpermfp) hport
  have hblk : permute s.fp (blockAfterRounds s.rk (permute s.ip s.blk) 16) = select s 0 s.blk :=
    (engineFwd_eq_stages _ _ _ _).symm.trans (select_of_not_inverse (by simp) s.blk).symm
  exact ⟨_, _, hstages, exec_xform_of_ready 0 hready, hblk,
    congrArg (fun B => { afterOk 0 { s with blk := B } with port := rest }) hblk⟩

/-! ## Loading a table and the key (R243) -/

/-- The elements written one after the other, and those not written. -/
theorem getElem_foldl_setOffset {α : Type} (T v : Vector α 8) (is : List (Fin 8)) (k : Fin 8) :
    (is.foldl (fun v i => setOffset v (BitVec.ofNat 3 i.val) T[i]) v)[k] = if k ∈ is then T[k] else v[k] := by
  induction is generalizing v with
  | nil => simp
  | cons i is ih =>
    have hi : (BitVec.ofNat 3 i.val).toNat = i.val := Nat.mod_eq_of_lt i.isLt
    rw [List.foldl_cons, ih, getElem_setOffset, hi]
    by_cases hk : k = i
    · simp [hk]
    · simp [hk, Fin.val_inj]

/-- Eight writes leave nothing of the old elements. -/
theorem foldl_setOffset_finRange {α : Type} (T v : Vector α 8) :
    (List.finRange 8).foldl (fun v i => setOffset v (BitVec.ofNat 3 i.val) T[i]) v = T :=
  ext_offsets fun k => (getElem_foldl_setOffset T v _ k).trans (if_pos (List.mem_finRange k))

/-- Eight commands that each write one entry of a part of the state load a whole table into it. -/
theorem doesAll_loadTable {f : Fin 8 → Instr} {get : State → Table} {set : State → Table → State} (T : Table)
    (hdoes : ∀ s i, Does (f i) s (set s (setOffset (get s) (BitVec.ofNat 3 i.val) T[i])))
    (hget : ∀ s v, get (set s v) = v) (hset : ∀ s v w, set (set s v) w = set s w) (s : State) :
    DoesAll ((List.finRange 8).map f) s (set s T) := by
  have hwrites (i : Fin 8) (is : List (Fin 8)) (s : State) : DoesAll ((i :: is).map f) s
      (set s ((i :: is).foldl (fun v i => setOffset v (BitVec.ofNat 3 i.val) T[i]) (get s))) := by
    induction is generalizing i s with
    | nil => exact doesAll_singleton (hdoes s i)
    | cons j is ih =>
      have hrest := ih j (set s (setOffset (get s) (BitVec.ofNat 3 i.val) T[i]))
      rw [hget, hset] at hrest
      exact doesAll_cons (hdoes s i) hrest
  have hall := hwrites 0 ((List.finRange 7).map Fin.succ) s
  rwa [← List.finRange_succ, foldl_setOffset_finRange] at hall

theorem doesAll_keypush (s : State) (K : List Byte) (h : s.klen + K.length ≤ s.params.keyMax) :
    DoesAll (K.map .keypush) (afterOk 0 { s with ready := false })
      (afterOk 0 { s with key := s.key ++ K, ready := false }) := by
  induction K generalizing s with
  | nil =>
    rw [List.append_nil]
    exact doesAll_nil _
  | cons d K ih =>
    rw [List.length_cons] at h
    have hfirst := does_keypush (s := afterOk 0 { s with ready := false }) d (show s.klen ≠ s.params.keyMax by omega)
    have hlen : (s.key ++ [d]).length + K.length ≤ s.params.keyMax := by
      rw [List.length_append, List.length_singleton]
      exact (Nat.add_right_comm _ _ _).trans_le h
    have hrest := ih { s with key := s.key ++ [d] } hlen
    rw [List.append_assoc] at hrest
    exact doesAll_cons hfirst hrest

/-! ## The bring-up sequence (R243) -/

/-- What the bring-up sequence leaves. -/
def afterBringUp (s : State) (T U : Table) (K : List Byte) (hT : validTable T) (hU : validTable U) (hK : 0 < K.length) :
    State :=
  afterInit { s with key := K, ip := T, fp := U } hT hU hK

theorem doesAll_bringUp (s : State) {T U : Table} {K : List Byte} (hT : validTable T) (hU : validTable U)
    (hK : 0 < K.length) (hmax : K.length ≤ s.params.keyMax) :
    DoesAll (bringUp T U K) s (afterBringUp s T U K hT hU hK) := by
  have hip := doesAll_loadTable (get := State.ip) (set := fun s v => afterOk 0 { s with ip := v, ready := false }) T
    (fun s i => does_ldip s _ _) (fun _ _ => rfl) (fun _ _ _ => rfl) s
  have hfp := doesAll_loadTable (get := State.fp) (set := fun s v => afterOk 0 { s with fp := v, ready := false }) U
    (fun s i => does_ldfp s _ _) (fun _ _ => rfl) (fun _ _ _ => rfl)
    (afterOk 0 { s with ip := T, ready := false })
  have hclear := doesAll_singleton (does_keyclr { s with ip := T, fp := U, ready := false })
  have hkey := doesAll_keypush { s with key := [], ip := T, fp := U } K ((Nat.zero_add _).trans_le hmax)
  have hinit := doesAll_singleton
    (does_init (afterOk 0 { s with key := K, ip := T, fp := U, ready := false }) hT hU hK)
  exact doesAll_append (doesAll_append (doesAll_append (doesAll_append hip hfp) hclear) hkey) hinit

/-- Settles O23: the loads leave the given tables and key, of which `INIT` makes the construction. -/
theorem bringUpConfiguresTheEngine : Obligations.BringUpConfiguresTheEngine := by
  intro s T U K rest _ hT hU hK hmax hport
  exact ⟨_, runSteps_of_doesAll (doesAll_bringUp s hT hU hK hmax) hport, rfl, ⟨hT, hU, hK, rfl, rfl, rfl⟩,
    rfl, rfl, rfl, rfl, rfl, rfl, rfl, rfl, sameBytes_of_memory rfl rfl rfl⟩

end Sys2Proof.Machine

/-!
# `RUN` and the codec (45_file_codec.md)

What `RUN` leaves against the codec (R190, R194), block by block (R198), refused (R191) and undone (R175).
-/

namespace Sys2Proof.Machine

/-! ## A buffer as Blocks (R52) -/

theorem toList_blockAt (s : State) (sp : Space) (k : Nat) :
    (blockAt s sp k).toList = (List.range 8).map fun j => byteAt s sp (8 * k + j) := rfl

/-- The bytes from address 0 up are those of the blocks from block 0 up. -/
theorem memRead_blocks (s : State) (sp : Space) (n : Nat) :
    memRead s sp 0 (8 * n) = blockBytes ((List.range n).map (blockAt s sp)) := by
  simp only [memRead, Nat.zero_add]
  induction n with
  | zero => rfl
  | succ n ih =>
    have hlast : blockBytes [blockAt s sp n] = ((List.range 8).map (8 * n + ·)).map (byteAt s sp) := by
      rw [List.map_map]
      exact (List.flatMap_singleton _ _).trans (toList_blockAt s sp n)
    rw [Nat.mul_succ, List.range_add, List.map_append, ih, List.range_succ (n := n), List.map_append, blockBytes_append,
      List.map_singleton, hlast]

/-- A buffer of whole blocks is read as its blocks. -/
theorem memRead_eq_blockBytes (s : State) (sp : Space) {n : Nat} (h : n % 8 = 0) :
    memRead s sp 0 n = blockBytes ((List.range (n / 8)).map (blockAt s sp)) := by
  rw [← memRead_blocks, Nat.mul_div_cancel' (Nat.dvd_of_mod_eq_zero h)]

/-! ## `RUN` (R191, R194, R198) -/

/-- A `RUN` that answers `OK` found the construction and whole blocks. -/
theorem ready_and_aligned_of_run_ok {s t : State} {dir : BitVec 1} {d : Word} (h : exec (.run dir) s = .next t)
    (hresp : t.resp = some ⟨0, d⟩) : s.ready = true ∧ s.len.toNat % 8 = 0 := by
  obtain ⟨u, hu, -⟩ := succeeds_of_resp_ok h hresp
  cases hu with
  | run hready hlen => exact ⟨hready, hlen⟩

/-- Each block that a `RUN` wrote is the transform of the input block in its place. -/
theorem blockAt_of_exec_run {s t : State} {dir : BitVec 1} (hready : s.ready = true) (hlen : s.len.toNat % 8 = 0)
    (h : exec (.run dir) s = .next t) {k : Nat} (hk : k < s.len.toNat / 8) :
    blockAt t .obuf k = select s dir (blockAt s .ibuf k) := by
  cases h.symm.trans (exec_run_of_aligned dir hready hlen)
  exact ext_offsets fun j => (getElem_blockAt _ .obuf k j j.isLt).trans
    ((byteAt_afterOk _ _ .obuf _).trans (byteAt_runBlocks_offset s dir hk j s.len))

/-- Settles O43: input and output are the bytes of their blocks, and each output block is the transform of its input. -/
theorem runIsTheFileCodec : Obligations.RunIsTheFileCodec := by
  intro s t dir hready hlen hexec
  rw [memRead_eq_blockBytes s .ibuf hlen, memRead_eq_blockBytes t .obuf hlen, codec_blockBytes, List.map_map]
  have hblocks := List.map_congr_left fun k hk => blockAt_of_exec_run hready hlen hexec (List.mem_range.mp hk)
  exact congrArg (fun Bs => some (blockBytes Bs)) hblocks.symm

/-- Settles O45: the alignment error is raised, which writes no memory. -/
theorem runRefusesAPartialBlock : Obligations.RunRefusesAPartialBlock := fun s dir hready hlen =>
  ⟨_, exec_run_of_misaligned dir hready hlen, failsWith_afterError (.misaligned _) s,
    byteAt_afterError (.misaligned _) s⟩

/-- Settles O46: an output block is the selected transform of its input block, and both states select the same. -/
theorem outputBlocksAreIndependent : Obligations.OutputBlocksAreIndependent := by
  intro s s' t t' dir k k' h h' hresp hresp' hparams hip hfp hipi hfpi hrk hk hk' hin j hj
  obtain ⟨hready, hlen⟩ := ready_and_aligned_of_run_ok h hresp
  obtain ⟨hready', hlen'⟩ := ready_and_aligned_of_run_ok h' hresp'
  have hblock : blockAt s .ibuf k = blockAt s' .ibuf k' := congrArg Vector.ofFn (funext fun j => hin j j.isLt)
  have hselect (B : Block) : select s dir B = select s' dir B := by
    simp only [select, hparams, hip, hfp, hipi, hfpi, hrk]
  have hout : blockAt t .obuf k = blockAt t' .obuf k' := by
    rw [blockAt_of_exec_run hready hlen h hk, blockAt_of_exec_run hready' hlen' h' hk', hblock, hselect]
  simpa only [getElem_blockAt] using congrArg (fun B : Block => B[j]) hout

/-! ## The inverse codec (R175, R190) -/

/-- Settles O47: the codec maps the transform over the blocks, and under `INVERSE` one transform undoes the other. -/
theorem inverseCodecRestoresTheBuffer : Obligations.InverseCodecRestoresTheBuffer := by
  intro s buf out hc hmode hcodec
  obtain ⟨Bs, rfl, rfl⟩ := codec_eq_some_iff.mp hcodec
  have hback : (Bs.map (select s 0)).map (select s 1) = Bs := by
    rw [List.map_map]
    exact (List.map_congr_left fun B _ => select_one_select_zero hc hmode B).trans (List.map_id Bs)
  rw [codec_blockBytes, hback]

end Sys2Proof.Machine
